-- ==== Sys2Proof/Word.lean ====
section
/-! DEFINITION. The word of the block's registers and of a `TX` cell (10_state.md R21, 20_memory.md R53), and the
bit of `KS` and `DB` (20_memory.md R40). -/

namespace Sys2Proof

/-- A register value or a code point: 32 bits, bit 0 the least significant, unsigned (00_scope.md R9). -/
abbrev Word := BitVec 32

/-- One bit of a sequence, 0 or 1 (00_scope.md R9, R10). -/
abbrev Bit := BitVec 1

end Sys2Proof
end

