-- ==== Sys2Proof/Config.lean ====
section
/-! DEFINITION. The implementation parameters of 00_scope.md R7. The functions of the model take them as an
argument, `execAt` and `stepAt` among them; `exec` and `step` use the reference values (log entry 1). -/

namespace Sys2Proof

/-- The four sizes a realisation fixes (00_scope.md R7). -/
structure Params where
  /-- `NMAX`: the largest `DEGREE` the block accepts. -/
  nmax : Nat
  /-- `TMAX`: the number of entries of the tap table. -/
  tmax : Nat
  /-- `LMAX`: the number of cells of `KS` and of `DB`. -/
  lmax : Nat
  /-- `CMAX`: the number of cells of `TX`. -/
  cmax : Nat
  deriving DecidableEq, Repr

/-- The constraints 00_scope.md R7 puts on the four sizes. -/
abbrev Params.Valid (p : Params) : Prop :=
  (1 ≤ p.nmax ∧ p.nmax ≤ 32) ∧ (1 ≤ p.tmax ∧ p.tmax ≤ 255) ∧ (8 ≤ p.lmax ∧ p.lmax < 2 ^ 32) ∧
    p.cmax = p.lmax / 8

/-- The reference values of 00_scope.md R7 (log entry 1). -/
def Config.params : Params :=
  { nmax := 16
    tmax := 16
    lmax := 262144
    cmax := 32768 }

end Sys2Proof
end

