-- ==== Sys2Proof/Machine/State.lean ====
section
/-! DEFINITION. The state of the block (10_state.md R15, R21, R28; 20_memory.md R40, R50), the host's pending
accesses (20_memory.md R42; log entry 2), the reasons a step can stop, and reset (10_state.md R39). -/

namespace Sys2Proof.Machine

/-- The values of `STATUS.ERR` (10_state.md R23, 60_exceptions.md R151). -/
inductive ErrCode where
  /-- 0: the command succeeded. -/
  | ok
  /-- 1: malformed tap list, degree or seed length, or `STEP` with no open run (60_exceptions.md R152). -/
  | invalidConfig
  /-- 2: empty sequence passed to the classifier (60_exceptions.md R153). -/
  | invalidSequence
  /-- 3: keystream and data of different length (60_exceptions.md R154). -/
  | lengthMismatch
  /-- 4: a bit count that is no multiple of 8 (60_exceptions.md R155). -/
  | malformedBits
  /-- 5: a code point above 255 (60_exceptions.md R156). -/
  | encodingError
  /-- 6: the word written to `CMD` is none of the eleven (60_exceptions.md R166). -/
  | illegalCommand
  /-- 7: a length exceeds the capacity of its buffer (60_exceptions.md R167). -/
  | capacityExceeded
  deriving DecidableEq, Repr

/-- The values of `CLASS` (41_period_classifier.md R122). -/
inductive ClassTag where
  /-- 0: no successful `CLASSIFY` since reset. -/
  | none
  /-- 1. -/
  | primitive
  /-- 2. -/
  | irreducibleNonPrimitive
  /-- 3. -/
  | reducible
  deriving DecidableEq, Repr

/-- The three buffers (20_memory.md R40). -/
inductive Buffer where
  | ks
  | db
  | tx
  deriving DecidableEq, Repr

/-- One access of the host (20_memory.md R42), or the platform's reset (70_reset_and_hazards.md R180). -/
inductive Access where
  /-- `HostRead(REG, r)`. -/
  | readReg (r : Nat)
  /-- `HostWrite(REG, r, v)`; to register 0, `CMD`, it executes the command `v` encodes (10_state.md R22). -/
  | writeReg (r : Nat) (v : Word)
  /-- `HostRead(KS, a)`. -/
  | readKs (a : Nat)
  /-- `HostWrite(KS, a, v)`. -/
  | writeKs (a : Nat) (v : Bit)
  /-- `HostRead(DB, a)`. -/
  | readDb (a : Nat)
  /-- `HostWrite(DB, a, v)`. -/
  | writeDb (a : Nat) (v : Bit)
  /-- `HostRead(TX, a)`. -/
  | readTx (a : Nat)
  /-- `HostWrite(TX, a, v)`. -/
  | writeTx (a : Nat) (v : Word)
  /-- The reset event (70_reset_and_hazards.md R180). -/
  | reset
  deriving DecidableEq, Repr

/-- The cells of a buffer that do not hold what an unlisted cell holds, by index. -/
abbrev Memory (w : Nat) := List (Nat × BitVec w)

/-- What an unlisted cell holds: 0, the reset contents of every cell (10_state.md R39, 20_memory.md R50; log entry 7). -/
def Memory.blank (w : Nat) : BitVec w := 0#w

/-- The canonical form: indices strictly rising, no entry that an unlisted cell would read as. -/
abbrev Memory.wf {w : Nat} (m : Memory w) : Prop :=
  m.Pairwise (fun x y => x.1 < y.1) ∧ ∀ c ∈ m, c.2 ≠ Memory.blank w

/-- Every listed cell exists: its index is below the buffer's capacity (20_memory.md R43). -/
abbrev Memory.within {w : Nat} (m : Memory w) (capacity : Nat) : Prop :=
  ∀ c ∈ m, c.1 < capacity

/-- The complete state of the block (10_state.md R15), `STATUS` as its three fields (log entry 6), and, last, the
host's side (log entry 2). -/
structure State where
  /-- `STATUS.ERR` (10_state.md R23). -/
  err : ErrCode
  /-- `STATUS.RUN`: a run is open (10_state.md R23, R34). -/
  run : Bool
  /-- `STATUS.OUT` (10_state.md R23). -/
  out : Bit
  /-- `ERRINFO` (10_state.md R24). -/
  errinfo : Word
  /-- `CONV` (10_state.md R25). -/
  conv : Word
  /-- `DEGREE` (10_state.md R26). -/
  degree : Word
  /-- `NTAP` (10_state.md R27). -/
  ntap : Word
  /-- `SEED` (10_state.md R29). -/
  seed : Word
  /-- `S`, read as `STATE` (10_state.md R16, R30; log entry 5). -/
  lfsr : Word
  /-- `LEN` (10_state.md R31). -/
  len : Word
  /-- `KSLEN` (10_state.md R32). -/
  kslen : Word
  /-- `DBLEN` (10_state.md R32). -/
  dblen : Word
  /-- `TXLEN` (10_state.md R32). -/
  txlen : Word
  /-- `PERIOD` (10_state.md R33). -/
  period : Word
  /-- `MAXPER` (10_state.md R33). -/
  maxper : Word
  /-- `CLASS` (10_state.md R33). -/
  cls : ClassTag
  /-- `TAP[0..TMAX-1]` (10_state.md R28). -/
  tap : List Word
  /-- The buffer `KS` (20_memory.md R51). -/
  ks : Memory 1
  /-- The buffer `DB` (20_memory.md R52). -/
  db : Memory 1
  /-- The buffer `TX` (20_memory.md R53). -/
  tx : Memory 32
  /-- The model's own: the accesses the host makes next, oldest first (log entry 2). -/
  pending : List Access
  /-- The model's own: the values the host's reads returned, oldest first (log entry 2). -/
  answers : List Word
  deriving DecidableEq, Repr

/-- Why a step stops the machine: never. An error of a command is a result in `STATUS.ERR` and the block goes on
(60_exceptions.md R160, R162); so this type has no value (log entry 4). -/
inductive Fault where
  deriving DecidableEq, Repr

/-- What the model gives no meaning (log entry 3). -/
inductive Refusal where
  /-- Raised by an arm of `exec` whose command has no meaning yet; no arm is left. Safe: nothing can be proved of it. -/
  | notModelled (mnemonic : String)
  /-- Raised by a host access to a register number that does not exist (10_state.md R35). Safe. -/
  | noSuchRegister (r : Nat)
  /-- Raised by a host access to a cell index at or beyond the buffer's capacity (20_memory.md R43). Safe. -/
  | noSuchCell (b : Buffer) (a : Nat)
  deriving DecidableEq, Repr

/-- Every register, tap entry, length and cell at 0 (10_state.md R39, 70_reset_and_hazards.md R180). -/
def State.resetAt (p : Params) : State :=
  { err := .ok
    run := false
    out := 0#1
    errinfo := 0#32
    conv := 0#32
    degree := 0#32
    ntap := 0#32
    seed := 0#32
    lfsr := 0#32
    len := 0#32
    kslen := 0#32
    dblen := 0#32
    txlen := 0#32
    period := 0#32
    maxper := 0#32
    cls := .none
    tap := List.replicate p.tmax 0#32
    ks := []
    db := []
    tx := []
    pending := []
    answers := [] }

/-- The state right after reset, with the reference sizes and no access pending (10_state.md R39). -/
def State.reset : State := State.resetAt Config.params

end Sys2Proof.Machine
end

