-- ==== Sys2Proof/Machine/Ops.lean ====
section
/-! DEFINITION. The named operations: cells of a buffer (00_scope.md R11, 20_memory.md R42), bits of a word
(00_scope.md R9), and the two ways a command ends (60_exceptions.md R159, R160). -/

namespace Sys2Proof.Machine

/-- The value of cell `a`. -/
def Memory.read {w : Nat} : Memory w → Nat → BitVec w
  | [], _ => Memory.blank w
  | (b, v) :: m, a => if b = a then v else Memory.read m a

/-- The listed cells of the values `vs` at indices `a`, `a + 1`, …. -/
def Memory.listed {w : Nat} : Nat → List (BitVec w) → Memory w
  | _, [] => []
  | a, v :: vs =>
    if v = Memory.blank w then Memory.listed (a + 1) vs else (a, v) :: Memory.listed (a + 1) vs

/-- `MemWrite(B, a, len(vs), vs)` (00_scope.md R11): `vs[0]` to cell `a`; every other cell keeps its value
(20_memory.md R50). -/
def Memory.write {w : Nat} (m : Memory w) (a : Nat) (vs : List (BitVec w)) : Memory w :=
  m.filter (fun c => c.1 < a) ++ Memory.listed a vs ++ m.filter (fun c => a + vs.length ≤ c.1)

/-- `MemRead(B, a, n)` (00_scope.md R11): cells `a` to `a + n - 1` in that order. -/
def Memory.readSeq {w : Nat} (m : Memory w) (a n : Nat) : List (BitVec w) :=
  (List.range n).map (fun i => m.read (a + i))

/-- `v[i]`, that is `(v >> i) & 1` (00_scope.md R9). -/
def bitAt (v : Word) (i : Nat) : Bit := BitVec.ofBool (v.getLsbD i)

/-- `2^n - 1` as a word, `n ≤ 32` (40_lfsr_engine.md R96, R109). -/
def lowMask (n : Nat) : Word := BitVec.ofNat 32 (2 ^ n - 1)

/-- `zext_32(b)` (00_scope.md R11). -/
def bitToWord (b : Bit) : Word := b.setWidth 32

/-- `XOR over k of e(k)`: 0 over an empty range (00_scope.md R9). -/
def xorAll (bits : List Bit) : Bit := bits.foldr (fun b acc => b ^^^ acc) 0#1

/-- An error of a command: its code and its context (60_exceptions.md R150, R165). -/
structure Failure where
  code : ErrCode
  info : Word
  deriving DecidableEq, Repr

/-- `raise E(info)`: error entry. The code and the context are recorded and no other state changes; nothing is saved,
no mode changes, control stays with the host (60_exceptions.md R160). There is no return from an error (R162). -/
def raise (f : Failure) (s : State) : State :=
  { s with err := f.code, errinfo := f.info }

/-- `done`: successful completion (60_exceptions.md R159). -/
def done (s : State) : State :=
  { s with err := .ok, errinfo := 0#32 }

/-- `InvalidConfig((sub << 24) | idx)` (60_exceptions.md R152). -/
def invalidConfig (sub idx : Nat) : Failure :=
  { code := .invalidConfig
    info := (BitVec.ofNat 32 sub <<< 24) ||| BitVec.ofNat 32 idx }

/-- `InvalidSequence(0)` (60_exceptions.md R153). -/
def invalidSequence : Failure := { code := .invalidSequence, info := 0#32 }

/-- `LengthMismatch(KSLEN)` (60_exceptions.md R154). -/
def lengthMismatch (keyLength : Nat) : Failure :=
  { code := .lengthMismatch, info := BitVec.ofNat 32 keyLength }

/-- `MalformedBits(DBLEN)` (60_exceptions.md R155). -/
def malformedBits (bitCount : Nat) : Failure :=
  { code := .malformedBits, info := BitVec.ofNat 32 bitCount }

/-- `EncodingError(j)` (60_exceptions.md R156). -/
def encodingError (j : Nat) : Failure :=
  { code := .encodingError, info := BitVec.ofNat 32 j }

/-- `IllegalCommand(w)` (60_exceptions.md R166). -/
def illegalCommand (w : Word) : Failure := { code := .illegalCommand, info := w }

/-- `CapacityExceeded(length)` (60_exceptions.md R167). -/
def capacityExceeded (length : Word) : Failure := { code := .capacityExceeded, info := length }

end Sys2Proof.Machine
end

