-- ==== Sys2Proof/Machine/Operands.lean ====
section
/-! DEFINITION. The operands a command reads from registers and buffers when it executes (30_encoding.md R79), and
the two strategies a host selects (R84). -/

namespace Sys2Proof.Machine

/-- The two tap conventions (10_state.md R25, 40_lfsr_engine.md R94). -/
inductive Convention where
  /-- `CONV = 0`. -/
  | prepend
  /-- `CONV = 1`. -/
  | topfb
  deriving DecidableEq, Repr

/-- The two classification strategies, the `arg` of `CLASSIFY` (30_encoding.md R78). -/
inductive Strategy where
  /-- `arg = 0`. -/
  | exact
  /-- `arg = 1`. -/
  | twoval
  deriving DecidableEq, Repr

/-- SEM6's `LfsrConfig`, read from the registers (40_lfsr_engine.md R90). -/
structure LfsrConfig where
  conv : Convention
  degree : Nat
  taps : List Nat
  seed : Word
  deriving DecidableEq, Repr

/-- The convention `CONV` selects: PREPEND at 0, TOPFB otherwise; only 0 and 1 pass validation (40_lfsr_engine.md
R102). -/
def conventionOf (conv : Word) : Convention := if conv = 0#32 then .prepend else .topfb

/-- `taps = [TAP[0], …, TAP[NTAP-1]]`; entries at or beyond `NTAP` are ignored (10_state.md R27, R28). -/
def tapsOf (s : State) : List Nat := (s.tap.take s.ntap.toNat).map BitVec.toNat

/-- The configuration as it stands (40_lfsr_engine.md R90). -/
def configOf (s : State) : LfsrConfig :=
  { conv := conventionOf s.conv
    degree := s.degree.toNat
    taps := tapsOf s
    seed := s.seed }

/-- `seq(KS)` (20_memory.md R54). -/
def ksSeq (s : State) : List Bit := s.ks.readSeq 0 s.kslen.toNat

/-- `seq(DB)` (20_memory.md R54). -/
def dbSeq (s : State) : List Bit := s.db.readSeq 0 s.dblen.toNat

/-- `seq(TX)` (20_memory.md R54). -/
def txSeq (s : State) : List Word := s.tx.readSeq 0 s.txlen.toNat

end Sys2Proof.Machine
end

