-- ==== Sys2Proof/Machine/Classifier.lean ====
section
/-! DEFINITION. The period detector and the Polynomial Classifier, and the commands `PERIOD` and `CLASSIFY`
(41_period_classifier.md). -/

namespace Sys2Proof.Machine

/-- `q[i] = q[i mod p]` for all `i` with `p ≤ i < len(q)` (41_period_classifier.md R110). -/
def repeatsEvery (q : List Bit) (p : Nat) : Bool :=
  (List.range q.length).all (fun i => decide (i < p) || q.getD i 0#1 == q.getD (i % p) 0#1)

/-- The scan of candidates upward from `p`, at most `fuel` of them (41_period_classifier.md R112). -/
def scanPeriod (q : List Bit) : Nat → Nat → Nat
  | 0, p => p
  | fuel + 1, p => if repeatsEvery q p then p else scanPeriod q fuel (p + 1)

/-- `period(q)` of a non-empty sequence: candidates 1 to `len(q)`, the last of which always repeats
(41_period_classifier.md R110, R111, R112). -/
def period (q : List Bit) : Nat := scanPeriod q q.length 1

/-- `maxPeriod(n) = 2^n - 1` (41_period_classifier.md R115). -/
def maxPeriod (n : Nat) : Nat := 2 ^ n - 1

/-- The number of distinct values in `q` (41_period_classifier.md R117). -/
def distinctValues (q : List Bit) : Nat := ([0#1, 1#1].filter (fun b => q.contains b)).length

/-- Strategy EXACT, the lines in the order listed (41_period_classifier.md R116; log entry 14 for degree 1). -/
def classifyExact (q : List Bit) (n : Nat) : ClassTag :=
  if period q = maxPeriod n then .primitive
  else if period q = 1 then .reducible
  else .irreducibleNonPrimitive

/-- Strategy TWOVAL (41_period_classifier.md R117; log entry 15 for the window's length). -/
def classifyTwoval (q : List Bit) (n : Nat) : ClassTag :=
  if distinctValues q = 2 ∧ period q = maxPeriod n then .primitive
  else if distinctValues q = 2 then .irreducibleNonPrimitive
  else .reducible

/-- The tag under a strategy; none is the default (41_period_classifier.md R118). -/
def classify (strategy : Strategy) (q : List Bit) (n : Nat) : ClassTag :=
  match strategy with
  | .exact => classifyExact q n
  | .twoval => classifyTwoval q n

/-- `PERIOD` (41_period_classifier.md R120). -/
def cmdPeriod (p : Params) (s : State) : State :=
  if s.kslen.toNat > p.lmax then raise (capacityExceeded s.kslen) s
  else if s.kslen = 0#32 then raise invalidSequence s
  else done { s with period := BitVec.ofNat 32 (period (ksSeq s)) }

/-- `CLASSIFY` under a strategy (41_period_classifier.md R121). -/
def cmdClassify (strategy : Strategy) (p : Params) (s : State) : State :=
  if s.kslen.toNat > p.lmax then raise (capacityExceeded s.kslen) s
  else if s.kslen = 0#32 then raise invalidSequence s
  else if s.degree.toNat < 1 ∨ s.degree.toNat > p.nmax then raise (invalidConfig 2 0) s
  else
    done { s with
      period := BitVec.ofNat 32 (period (ksSeq s))
      maxper := BitVec.ofNat 32 (maxPeriod s.degree.toNat)
      cls := classify strategy (ksSeq s) s.degree.toNat }

/-- The meaning of `PERIOD`. -/
def execPeriod (s : State) : Host.Outcome State Fault Refusal := .next (cmdPeriod Config.params s)

/-- The meaning of `CLASSIFY EXACT`. -/
def execClassifyExact (s : State) : Host.Outcome State Fault Refusal :=
  .next (cmdClassify .exact Config.params s)

/-- The meaning of `CLASSIFY TWOVAL`. -/
def execClassifyTwoval (s : State) : Host.Outcome State Fault Refusal :=
  .next (cmdClassify .twoval Config.params s)

end Sys2Proof.Machine
end

