-- ==== Sys2Proof/Machine/Codec.lean ====
section
/-! DEFINITION. The Stream Cipher Codec: the five pure functions and the commands `T2B`, `B2T`, `XOR`, `ENC`, `DEC`
(42_cipher_codec.md). A pure function answers its result or its error (00_scope.md R12). -/

namespace Sys2Proof.Machine

/-- The 8 bits of a character, the most significant first (20_memory.md R56). -/
def charBits (c : Word) : List Bit := (List.range 8).map (fun b => bitAt c (7 - b))

/-- `textToBits` (42_cipher_codec.md R130); the error names the least index of a code point above 255. -/
def textToBits (text : List Word) : Except Failure (List Bit) :=
  match text.findIdx? (fun c => decide (c.toNat > 255)) with
  | some j => .error (encodingError j)
  | none => .ok (text.flatMap charBits)

/-- Character `j` of a bit sequence, zero extended: the sum of `bits[8j + b] * 2^(7-b)` (42_cipher_codec.md R131,
20_memory.md R56). -/
def charAt (bits : List Bit) (j : Nat) : Word :=
  BitVec.ofNat 32 (((List.range 8).map (fun b => (bits.getD (8 * j + b) 0#1).toNat * 2 ^ (7 - b))).sum)

/-- `bitsToText` (42_cipher_codec.md R131). -/
def bitsToText (bits : List Bit) : Except Failure (List Word) :=
  if bits.length % 8 ≠ 0 then .error (malformedBits bits.length)
  else .ok ((List.range (bits.length / 8)).map (charAt bits))

/-- `xorTransform` (42_cipher_codec.md R133); the error carries the keystream's length (60_exceptions.md R154; log
entry 12). -/
def xorTransform (data keystream : List Bit) : Except Failure (List Bit) :=
  if data.length ≠ keystream.length then .error (lengthMismatch keystream.length)
  else .ok (List.zipWith (fun d k => d ^^^ k) data keystream)

/-- `encrypt(plaintext, keystream) = xorTransform(textToBits(plaintext), keystream)` (42_cipher_codec.md R134). -/
def encrypt (plaintext : List Word) (keystream : List Bit) : Except Failure (List Bit) :=
  (textToBits plaintext).bind (fun bits => xorTransform bits keystream)

/-- `decrypt(ciphertext, keystream) = bitsToText(xorTransform(ciphertext, keystream))` (42_cipher_codec.md R135). -/
def decrypt (ciphertext keystream : List Bit) : Except Failure (List Word) :=
  (xorTransform ciphertext keystream).bind bitsToText

/-- The result of a pure function as the sequence of `DB`, its length in `DBLEN`; or its error. -/
def concludeDb (r : Except Failure (List Bit)) (s : State) : State :=
  match r with
  | .error f => raise f s
  | .ok bits => done { s with db := s.db.write 0 bits, dblen := BitVec.ofNat 32 bits.length }

/-- The result of a pure function as the sequence of `TX`, its length in `TXLEN`; or its error. -/
def concludeTx (r : Except Failure (List Word)) (s : State) : State :=
  match r with
  | .error f => raise f s
  | .ok text => done { s with tx := s.tx.write 0 text, txlen := BitVec.ofNat 32 text.length }

/-- `T2B` (42_cipher_codec.md R138). -/
def cmdT2b (p : Params) (s : State) : State :=
  if s.txlen.toNat > p.cmax then raise (capacityExceeded s.txlen) s
  else concludeDb (textToBits (txSeq s)) s

/-- `B2T` (42_cipher_codec.md R139). -/
def cmdB2t (p : Params) (s : State) : State :=
  if s.dblen.toNat > p.lmax then raise (capacityExceeded s.dblen) s
  else concludeTx (bitsToText (dbSeq s)) s

/-- `XOR` (42_cipher_codec.md R140): in place, `DBLEN` stands. -/
def cmdXor (p : Params) (s : State) : State :=
  if s.dblen.toNat > p.lmax then raise (capacityExceeded s.dblen) s
  else if s.kslen.toNat > p.lmax then raise (capacityExceeded s.kslen) s
  else
    match xorTransform (dbSeq s) (ksSeq s) with
    | .error f => raise f s
    | .ok bits => done { s with db := s.db.write 0 bits }

/-- `ENC` (42_cipher_codec.md R141). -/
def cmdEnc (p : Params) (s : State) : State :=
  if s.txlen.toNat > p.cmax then raise (capacityExceeded s.txlen) s
  else if s.kslen.toNat > p.lmax then raise (capacityExceeded s.kslen) s
  else concludeDb (encrypt (txSeq s) (ksSeq s)) s

/-- `DEC` (42_cipher_codec.md R142). -/
def cmdDec (p : Params) (s : State) : State :=
  if s.dblen.toNat > p.lmax then raise (capacityExceeded s.dblen) s
  else if s.kslen.toNat > p.lmax then raise (capacityExceeded s.kslen) s
  else concludeTx (decrypt (dbSeq s) (ksSeq s)) s

/-- The meaning of `T2B`. -/
def execT2b (s : State) : Host.Outcome State Fault Refusal := .next (cmdT2b Config.params s)

/-- The meaning of `B2T`. -/
def execB2t (s : State) : Host.Outcome State Fault Refusal := .next (cmdB2t Config.params s)

/-- The meaning of `XOR`. -/
def execXor (s : State) : Host.Outcome State Fault Refusal := .next (cmdXor Config.params s)

/-- The meaning of `ENC`. -/
def execEnc (s : State) : Host.Outcome State Fault Refusal := .next (cmdEnc Config.params s)

/-- The meaning of `DEC`. -/
def execDec (s : State) : Host.Outcome State Fault Refusal := .next (cmdDec Config.params s)

end Sys2Proof.Machine
end

