-- ==== Sys2Proof/Machine/Flags.lean ====
section
/-! DEFINITION. The fields of `STATUS` (10_state.md R23, R36) and the codes of `CLASS` (41_period_classifier.md R122).
There is no arithmetic flag. -/

namespace Sys2Proof.Machine

/-- The number of an error in `STATUS.ERR` (60_exceptions.md R151). -/
def errCode : ErrCode → BitVec 4
  | .ok => 0#4
  | .invalidConfig => 1#4
  | .invalidSequence => 2#4
  | .lengthMismatch => 3#4
  | .malformedBits => 4#4
  | .encodingError => 5#4
  | .illegalCommand => 6#4
  | .capacityExceeded => 7#4

/-- `STATUS` as the host reads it: `ERR` in bits 3:0, `RUN` in bit 4, `OUT` in bit 5, bits 31:6 zero (10_state.md
R23). -/
def statusWord (s : State) : Word :=
  ((0#26 ++ s.out) ++ BitVec.ofBool s.run) ++ errCode s.err

/-- The number of a tag in `CLASS` (41_period_classifier.md R122). -/
def classCode : ClassTag → Word
  | .none => 0#32
  | .primitive => 1#32
  | .irreducibleNonPrimitive => 2#32
  | .reducible => 3#32

/-- `STATUS.RUN <- 1`: a run is open (10_state.md R23). -/
def openRun (s : State) : State := { s with run := true }

/-- The close of a run by a configuration write (10_state.md R34). -/
def closeRun (s : State) : State := { s with run := false }

/-- `STATUS.OUT <- b` (10_state.md R23). -/
def setOut (b : Bit) (s : State) : State := { s with out := b }

end Sys2Proof.Machine
end

