-- ==== Sys2Proof/Machine/Engine.lean ====
section
/-! DEFINITION. The LFSR Engine: validation, the two step rules, generation, and the commands `INIT`, `STEP`, `GEN`
(40_lfsr_engine.md). -/

namespace Sys2Proof.Machine

/-- A tap entry is in the range of its convention (40_lfsr_engine.md R91 (d)). -/
def tapLegal (c : Convention) (n t : Nat) : Bool :=
  match c with
  | .prepend => decide (t < n)
  | .topfb => decide (1 ≤ t) && decide (t ≤ n)

/-- The least `i ≥ n` with `seed[i] = 1` (40_lfsr_engine.md R92), for a seed that has one. -/
def leastSeedBit (n : Nat) (seed : Word) : Nat :=
  ((List.range 32).find? (fun i => decide (n ≤ i) && seed.getLsbD i)).getD 0

/-- `validate()`: the first check that fails, in the order of 40_lfsr_engine.md R92; `none` when the configuration is
valid. A zero seed is valid (R93). -/
def validate (p : Params) (s : State) : Option Failure :=
  if s.conv.toNat > 1 then some (invalidConfig 1 0)
  else if s.degree.toNat < 1 ∨ s.degree.toNat > p.nmax then some (invalidConfig 2 0)
  else if s.ntap.toNat < 1 ∨ s.ntap.toNat > p.tmax then some (invalidConfig 3 0)
  else
    match (tapsOf s).findIdx? (fun t => !tapLegal (conventionOf s.conv) s.degree.toNat t) with
    | some k => some (invalidConfig 4 k)
    | none =>
      if s.seed >>> s.degree.toNat ≠ 0#32 then
        some (invalidConfig 5 (leastSeedBit s.degree.toNat s.seed))
      else none

/-- `stepP` on a list (40_lfsr_engine.md R95): the new list and the output bit. -/
def stepList (taps : List Nat) (state : List Bit) : List Bit × Bit :=
  let feedback := xorAll (taps.map (fun t => state.getD t 0#1))
  (feedback :: state.dropLast, state.getLastD 0#1)

/-- The PREPEND step on the register (40_lfsr_engine.md R96): the new state and the output bit. -/
def stepPrepend (n : Nat) (taps : List Nat) (s : Word) : Word × Bit :=
  let fb := xorAll (taps.map (fun t => bitAt s t))
  (((s <<< 1) ||| bitToWord fb) &&& lowMask n, bitAt s (n - 1))

/-- `maxTap`: the largest value of the list as written (40_lfsr_engine.md R97). -/
def maxTap (taps : List Nat) : Nat := taps.foldr max 0

/-- The TOPFB step (40_lfsr_engine.md R97): the feedback is ORed into bit `maxTap - 1`, also when `maxTap` is below
the degree (R98; log entry 13). -/
def stepTopfb (taps : List Nat) (s : Word) : Word × Bit :=
  let feedback := xorAll (taps.map (fun t => bitAt s (t - 1)))
  ((s >>> 1) ||| (bitToWord feedback <<< (maxTap taps - 1)), bitAt s 0)

/-- One step under the convention of the configuration (40_lfsr_engine.md R94, R100). -/
def LfsrConfig.step (c : LfsrConfig) (s : Word) : Word × Bit :=
  match c.conv with
  | .prepend => stepPrepend c.degree c.taps s
  | .topfb => stepTopfb c.taps s

/-- `k` steps from state `s`: the state after them and the bits they emit, in order (40_lfsr_engine.md R100). -/
def LfsrConfig.runFrom (c : LfsrConfig) : Nat → Word → Word × List Bit
  | 0, s => (s, [])
  | k + 1, s =>
    let next := c.step s
    let rest := c.runFrom k next.1
    (rest.1, next.2 :: rest.2)

/-- `generate(config, length)` (40_lfsr_engine.md R100). -/
def LfsrConfig.generate (c : LfsrConfig) (length : Nat) : List Bit := (c.runFrom length c.seed).2

/-- `s_i`, the state after `i` steps from the seed (40_lfsr_engine.md R100). -/
def LfsrConfig.stateAfter (c : LfsrConfig) : Nat → Word
  | 0 => c.seed
  | i + 1 => (c.step (c.stateAfter i)).1

/-- `INIT` (40_lfsr_engine.md R101). -/
def cmdInit (p : Params) (s : State) : State :=
  match validate p s with
  | some f => raise f s
  | none => done (openRun { s with lfsr := s.seed, kslen := 0#32 })

/-- `STEP` (40_lfsr_engine.md R102; log entry 8 for states no run reaches). -/
def cmdStep (p : Params) (s : State) : State :=
  if s.run = false then raise (invalidConfig 6 0) s
  else if s.kslen.toNat ≥ p.lmax then raise (capacityExceeded s.kslen) s
  else
    let next := (configOf s).step s.lfsr
    done (setOut next.2
      { s with
        ks := s.ks.write s.kslen.toNat [next.2]
        kslen := s.kslen + 1#32
        lfsr := next.1 })

/-- `GEN` (40_lfsr_engine.md R103). `OUT` is the last bit when there is one, else unchanged. -/
def cmdGen (p : Params) (s : State) : State :=
  match validate p s with
  | some f => raise f s
  | none =>
    if s.len.toNat > p.lmax then raise (capacityExceeded s.len) s
    else
      let result := (configOf s).runFrom s.len.toNat s.seed
      done (setOut (result.2.getLastD s.out) (openRun
        { s with
          ks := s.ks.write 0 result.2
          lfsr := result.1
          kslen := s.len }))

/-- The meaning of `INIT`. -/
def execInit (s : State) : Host.Outcome State Fault Refusal := .next (cmdInit Config.params s)

/-- The meaning of `STEP`. -/
def execStep (s : State) : Host.Outcome State Fault Refusal := .next (cmdStep Config.params s)

/-- The meaning of `GEN`. -/
def execGen (s : State) : Host.Outcome State Fault Refusal := .next (cmdGen Config.params s)

end Sys2Proof.Machine
end

