-- ==== Sys2Proof/Syntax.lean ====
section
/-! DEFINITION. The commands: one constructor per row of opcode_table.json (30_encoding.md R76). No command has an
operand in its word but the strategy of `CLASSIFY`, for which the table has one row each (R79). -/

namespace Sys2Proof

/-- The eleven encodings of the ten commands (30_encoding.md R76). -/
inductive Instr where
  /-- `INIT`: open a run from the seed (40_lfsr_engine.md R101). -/
  | init
  /-- `STEP`: one shift-and-feedback step of the open run (40_lfsr_engine.md R102). -/
  | step
  /-- `GEN`: `generate(config, LEN)` into `KS` (40_lfsr_engine.md R103). -/
  | gen
  /-- `PERIOD`: measure the period of the sequence in `KS` (41_period_classifier.md R120). -/
  | period
  /-- `CLASSIFY EXACT` (41_period_classifier.md R121, R116). -/
  | classifyExact
  /-- `CLASSIFY TWOVAL` (41_period_classifier.md R121, R117). -/
  | classifyTwoval
  /-- `T2B`: text to bits (42_cipher_codec.md R138). -/
  | t2b
  /-- `B2T`: bits to text (42_cipher_codec.md R139). -/
  | b2t
  /-- `XOR`: combine `DB` with `KS` in place (42_cipher_codec.md R140). -/
  | xor
  /-- `ENC`: encrypt `TX` with `KS` into `DB` (42_cipher_codec.md R141). -/
  | enc
  /-- `DEC`: decrypt `DB` with `KS` into `TX` (42_cipher_codec.md R142). -/
  | dec
  deriving DecidableEq, Repr

end Sys2Proof
end

