-- ==== Sys2Proof/Machine/Dispatch.lean ====
section
/-! DEFINITION. One arm per command. -/

namespace Sys2Proof.Machine

def exec (i : Instr) (s : State) : Host.Outcome State Fault Refusal :=
  match i with
  | .init => Sys2Proof.Machine.execInit s
  | .step => Sys2Proof.Machine.execStep s
  | .gen => Sys2Proof.Machine.execGen s
  | .period => Sys2Proof.Machine.execPeriod s
  | .classifyExact => Sys2Proof.Machine.execClassifyExact s
  | .classifyTwoval => Sys2Proof.Machine.execClassifyTwoval s
  | .t2b => Sys2Proof.Machine.execT2b s
  | .b2t => Sys2Proof.Machine.execB2t s
  | .xor => Sys2Proof.Machine.execXor s
  | .enc => Sys2Proof.Machine.execEnc s
  | .dec => Sys2Proof.Machine.execDec s

end Sys2Proof.Machine
end

