-- ==== Sys2Proof/WellFormed.lean ====
section
/-! DEFINITION. Well-formed commands. A term of `Instr` has no operand, so each is well formed; what can be ill
formed is a command word, seen as its three fields (30_encoding.md R75, R80). -/

namespace Sys2Proof

/-- The fields of a command word (30_encoding.md R75). -/
structure CommandFields where
  /-- Bits 7:0, the operation code. -/
  opc : BitVec 8
  /-- Bits 15:8, the selector. -/
  arg : BitVec 8
  /-- Bits 31:16, reserved. -/
  rsv : BitVec 16
  deriving DecidableEq, Repr

/-- The operation codes of format N (30_encoding.md R77). -/
def formatNCodes : List (BitVec 8) :=
  [0x01#8, 0x02#8, 0x03#8, 0x10#8, 0x20#8, 0x21#8, 0x22#8, 0x23#8, 0x24#8]

/-- The operation code of format A, `CLASSIFY` (30_encoding.md R78). -/
def formatACode : BitVec 8 := 0x11#8

/-- The reserved field is 0 (30_encoding.md R75). -/
def CommandFields.reservedZero (f : CommandFields) : Bool := f.rsv == 0#16

/-- The operation code is in the list (30_encoding.md R80). -/
def CommandFields.opcodeListed (f : CommandFields) : Bool :=
  f.opc == formatACode || formatNCodes.contains f.opc

/-- The selector names a strategy in format A and is 0 in format N (30_encoding.md R77, R78, R80). -/
def CommandFields.selectorLegal (f : CommandFields) : Bool :=
  if f.opc == formatACode then f.arg == 0#8 || f.arg == 1#8 else f.arg == 0#8

/-- The word is not illegal in the sense of 30_encoding.md R80. -/
def CommandFields.wf (f : CommandFields) : Bool :=
  f.reservedZero && f.opcodeListed && f.selectorLegal

/-- The fields 30_encoding.md R76 gives each command. -/
def Instr.fields : Instr → CommandFields
  | .init => { opc := 0x01#8, arg := 0#8, rsv := 0#16 }
  | .step => { opc := 0x02#8, arg := 0#8, rsv := 0#16 }
  | .gen => { opc := 0x03#8, arg := 0#8, rsv := 0#16 }
  | .period => { opc := 0x10#8, arg := 0#8, rsv := 0#16 }
  | .classifyExact => { opc := 0x11#8, arg := 0#8, rsv := 0#16 }
  | .classifyTwoval => { opc := 0x11#8, arg := 1#8, rsv := 0#16 }
  | .t2b => { opc := 0x20#8, arg := 0#8, rsv := 0#16 }
  | .b2t => { opc := 0x21#8, arg := 0#8, rsv := 0#16 }
  | .xor => { opc := 0x22#8, arg := 0#8, rsv := 0#16 }
  | .enc => { opc := 0x23#8, arg := 0#8, rsv := 0#16 }
  | .dec => { opc := 0x24#8, arg := 0#8, rsv := 0#16 }

/-- A command is well formed when the fields of its word are. -/
def Instr.wf (i : Instr) : Bool := i.fields.wf

end Sys2Proof
end

