-- ==== Sys2Proof/Decode.lean ====
section
/-! DEFINITION. Decoding of a command word (30_encoding.md R86) and the encoder (R76). -/

namespace Sys2Proof

/-- Why a word is illegal (30_encoding.md R80); the block reports each as `IllegalCommand` (60_exceptions.md R166). -/
inductive IllegalWord where
  /-- Bits 31:16 are not 0. -/
  | reservedNotZero
  /-- A selector in a word that is not `CLASSIFY` with a named strategy. -/
  | selectorNotLegal
  /-- An operation code that does not exist. -/
  | opcodeUnknown
  deriving DecidableEq, Repr

/-- The fields of a word (30_encoding.md R75). -/
def splitWord (w : Word) : CommandFields :=
  { opc := w.extractLsb' 0 8
    arg := w.extractLsb' 8 8
    rsv := w.extractLsb' 16 16 }

/-- The word of three fields (30_encoding.md R75). -/
def joinWord (f : CommandFields) : Word := (f.rsv ++ f.arg) ++ f.opc

/-- The command of format N with this operation code (30_encoding.md R76, R77). -/
def decodeOpcode (opc : BitVec 8) : Except IllegalWord Instr :=
  if opc = 0x01#8 then .ok .init
  else if opc = 0x02#8 then .ok .step
  else if opc = 0x03#8 then .ok .gen
  else if opc = 0x10#8 then .ok .period
  else if opc = 0x20#8 then .ok .t2b
  else if opc = 0x21#8 then .ok .b2t
  else if opc = 0x22#8 then .ok .xor
  else if opc = 0x23#8 then .ok .enc
  else if opc = 0x24#8 then .ok .dec
  else .error .opcodeUnknown

/-- The command of three fields (30_encoding.md R86, line by line). -/
def decodeFields (f : CommandFields) : Except IllegalWord Instr :=
  if f.rsv ≠ 0#16 then .error .reservedNotZero
  else if f.opc = formatACode ∧ f.arg = 0#8 then .ok .classifyExact
  else if f.opc = formatACode ∧ f.arg = 1#8 then .ok .classifyTwoval
  else if f.arg ≠ 0#8 then .error .selectorNotLegal
  else decodeOpcode f.opc

/-- The command a word encodes (30_encoding.md R86). -/
def decode (w : Word) : Except IllegalWord Instr := decodeFields (splitWord w)

/-- The word of a command (30_encoding.md R76). -/
def encode (i : Instr) : Word := joinWord i.fields

/-- The host's view of `decode`: the `nbits` low bits of `w` as one command word. A command word stands in no memory,
so no byte order enters (log entry 10). -/
def decodeTableWord (nbits w : Nat) : Option Instr :=
  match decode (BitVec.ofNat 32 (w % 2 ^ nbits)) with
  | .ok i => some i
  | .error _ => none

end Sys2Proof
end

