-- ==== Sys2Proof/Machine/Registers.lean ====
section
/-! DEFINITION. The registers by number, and the host's reads and writes of them (10_state.md R21 to R35). A write to
`CMD` starts a command and is in Machine/HostPort.lean. -/

namespace Sys2Proof.Machine

/-- The registers that exist (10_state.md R21). -/
inductive Reg where
  | cmd
  | status
  | errinfo
  | conv
  | degree
  | ntap
  | seed
  | state
  | len
  | kslen
  | dblen
  | txlen
  | period
  | maxper
  | cls
  | tap (k : Nat)
  deriving DecidableEq, Repr

/-- The number of a register (10_state.md R21). -/
def regNumber : Reg → Nat
  | .cmd => 0
  | .status => 1
  | .errinfo => 2
  | .conv => 3
  | .degree => 4
  | .ntap => 5
  | .seed => 6
  | .state => 7
  | .len => 8
  | .kslen => 9
  | .dblen => 10
  | .txlen => 11
  | .period => 12
  | .maxper => 13
  | .cls => 14
  | .tap k => 16 + k

/-- The register with a number below 15. -/
def lowRegister : Nat → Option Reg
  | 0 => some .cmd
  | 1 => some .status
  | 2 => some .errinfo
  | 3 => some .conv
  | 4 => some .degree
  | 5 => some .ntap
  | 6 => some .seed
  | 7 => some .state
  | 8 => some .len
  | 9 => some .kslen
  | 10 => some .dblen
  | 11 => some .txlen
  | 12 => some .period
  | 13 => some .maxper
  | 14 => some .cls
  | _ => none

/-- The register with number `r`; 15 and every number from `16 + TMAX` on do not exist (10_state.md R21, R35). -/
def regOfNumber (p : Params) (r : Nat) : Option Reg :=
  if r < 16 then lowRegister r
  else if r < 16 + p.tmax then some (.tap (r - 16))
  else none

/-- What a host read returns (10_state.md R21, R22, R23, R30). -/
def readReg (s : State) : Reg → Word
  | .cmd => 0#32
  | .status => statusWord s
  | .errinfo => s.errinfo
  | .conv => s.conv
  | .degree => s.degree
  | .ntap => s.ntap
  | .seed => s.seed
  | .state => s.lfsr
  | .len => s.len
  | .kslen => s.kslen
  | .dblen => s.dblen
  | .txlen => s.txlen
  | .period => s.period
  | .maxper => s.maxper
  | .cls => classCode s.cls
  | .tap k => s.tap.getD k 0#32

/-- A host write to a register other than `CMD`: RW registers store all 32 bits, RO registers ignore the write
(10_state.md R21), a configuration register closes the run whatever is written (R34). -/
def writeReg (v : Word) (s : State) : Reg → State
  | .cmd => s
  | .status => s
  | .errinfo => s
  | .conv => closeRun { s with conv := v }
  | .degree => closeRun { s with degree := v }
  | .ntap => closeRun { s with ntap := v }
  | .seed => closeRun { s with seed := v }
  | .state => s
  | .len => { s with len := v }
  | .kslen => { s with kslen := v }
  | .dblen => { s with dblen := v }
  | .txlen => { s with txlen := v }
  | .period => s
  | .maxper => s
  | .cls => s
  | .tap k => closeRun { s with tap := s.tap.set k v }

end Sys2Proof.Machine
end

