-- ==== Sys2Proof/Machine/HostPort.lean ====
section
/-! DEFINITION. The host's port: what each access does (20_memory.md R42, R43, R59; 10_state.md R22, R35), the start
of a command, and reset (70_reset_and_hazards.md R180). The sizes `p` and the meanings of the commands at those sizes,
`run`, are arguments (00_scope.md R7). -/

namespace Sys2Proof.Machine

/-- The meanings of all commands. -/
abbrev Meanings := Instr → State → Host.Outcome State Fault Refusal

/-- The value of a read goes back to the host; the block is not changed (20_memory.md R59). -/
def answer (v : Word) (s : State) : State := { s with answers := s.answers ++ [v] }

/-- A write of `w` to `CMD`: the command runs, or the word is illegal (10_state.md R22, 30_encoding.md R86,
60_exceptions.md R166). The word is not stored. -/
def command (run : Meanings) (w : Word) (s : State) : Host.Outcome State Fault Refusal :=
  match decode w with
  | .ok i => run i s
  | .error _ => .next (raise (illegalCommand w) s)

/-- Reset: the block's state to its reset values; the host's side stays (70_reset_and_hazards.md R180; log entry 11). -/
def resetBlock (p : Params) (s : State) : State :=
  { State.resetAt p with pending := s.pending, answers := s.answers }

/-- The capacity of a buffer (20_memory.md R40). -/
def capacity (p : Params) : Buffer → Nat
  | .ks => p.lmax
  | .db => p.lmax
  | .tx => p.cmax

/-- An access to an existing register; `CMD` written is `command`. -/
def accessReg (p : Params) (r : Nat) (k : Reg → State) : Host.Outcome State Fault Refusal :=
  match regOfNumber p r with
  | some x => .next (k x)
  | none => .refused (.noSuchRegister r)

/-- An access to an existing cell (20_memory.md R43). -/
def accessCell (p : Params) (b : Buffer) (a : Nat) (t : State) : Host.Outcome State Fault Refusal :=
  if a < capacity p b then .next t else .refused (.noSuchCell b a)

/-- What one access of the host does. -/
def access (p : Params) (run : Meanings) (s : State) : Access → Host.Outcome State Fault Refusal
  | .readReg r => accessReg p r (fun x => answer (readReg s x) s)
  | .writeReg r v => if r = 0 then command run v s else accessReg p r (fun x => writeReg v s x)
  | .readKs a => accessCell p .ks a (answer (bitToWord (s.ks.read a)) s)
  | .writeKs a v => accessCell p .ks a { s with ks := s.ks.write a [v] }
  | .readDb a => accessCell p .db a (answer (bitToWord (s.db.read a)) s)
  | .writeDb a v => accessCell p .db a { s with db := s.db.write a [v] }
  | .readTx a => accessCell p .tx a (answer (s.tx.read a) s)
  | .writeTx a v => accessCell p .tx a { s with tx := s.tx.write a [v] }
  | .reset => .next (resetBlock p s)

/-- The host's next access is served; with none pending the block is idle (60_exceptions.md R170; log entry 2). -/
def serve (p : Params) (run : Meanings) (s : State) : Host.Outcome State Fault Refusal :=
  match s.pending with
  | [] => .next s
  | a :: rest => access p run { s with pending := rest } a

/-- The host's access that starts the command word `w` (10_state.md R22). -/
def commandAccess (nbits w : Nat) : Access := .writeReg 0 (BitVec.ofNat 32 (w % 2 ^ nbits))

end Sys2Proof.Machine
end

