-- ==== Sys2Proof/Machine/Sizes.lean ====
section
/-! DEFINITION. The commands at any sizes (00_scope.md R7); `exec` is these at the reference sizes (log entry 1). -/

namespace Sys2Proof.Machine

/-- The state a command leads to, at the sizes `p`. -/
def commandAt (p : Params) (i : Instr) (s : State) : State :=
  match i with
  | .init => cmdInit p s
  | .step => cmdStep p s
  | .gen => cmdGen p s
  | .period => cmdPeriod p s
  | .classifyExact => cmdClassify .exact p s
  | .classifyTwoval => cmdClassify .twoval p s
  | .t2b => cmdT2b p s
  | .b2t => cmdB2t p s
  | .xor => cmdXor p s
  | .enc => cmdEnc p s
  | .dec => cmdDec p s

/-- The meaning of a command at the sizes `p`: it always completes (60_exceptions.md R162). -/
def execAt (p : Params) (i : Instr) (s : State) : Host.Outcome State Fault Refusal := .next (commandAt p i s)

end Sys2Proof.Machine
end

