-- ==== Sys2Proof/Machine/Step.lean ====
section
/-! DEFINITION. One step: the host's next access (20_memory.md R62, R63), and a command word placed where the next
step takes it from. -/

namespace Sys2Proof.Machine

/-- One step of the machine at the reference sizes (log entry 1). -/
def step (s : State) : Host.Outcome State Fault Refusal := serve Config.params exec s

/-- One step of the machine at any sizes (00_scope.md R7); `State.resetAt` is its state after reset. -/
def stepAt (p : Params) (s : State) : Host.Outcome State Fault Refusal := serve p (execAt p) s

/-- The state with a write of the command word `w` to `CMD` as the host's very next access (log entry 2). -/
def State.withFetchWord (s : State) (nbits w : Nat) : State :=
  { s with pending := commandAccess nbits w :: s.pending }

end Sys2Proof.Machine
end

