-- ==== Sys2Proof/Machine/Script.lean ====
section
/-! DEFINITION. The host script of 30_encoding.md R83 and its pseudo-instructions (R85): each line is the list of
accesses it expands to (log entry 17). -/

namespace Sys2Proof.Machine

/-- A mnemonic line: the write of the command's word to `CMD` (30_encoding.md R83). -/
def lineCmd (i : Instr) : List Access := [.writeReg (regNumber .cmd) (encode i)]

/-- `WR <reg>, <value>` (30_encoding.md R83). -/
def lineWr (r : Reg) (v : Word) : List Access := [.writeReg (regNumber r) v]

/-- `RD <reg>` (30_encoding.md R83). -/
def lineRd (r : Reg) : List Access := [.readReg (regNumber r)]

/-- `WRB <buf>[<i>], <v>` (30_encoding.md R83); for `KS` and `DB` the value is one bit (20_memory.md R42). -/
def lineWrb (b : Buffer) (i : Nat) (v : Word) : List Access :=
  match b with
  | .ks => [.writeKs i (v.setWidth 1)]
  | .db => [.writeDb i (v.setWidth 1)]
  | .tx => [.writeTx i v]

/-- `RDB <buf>[<i>]` (30_encoding.md R83). -/
def lineRdb (b : Buffer) (i : Nat) : List Access :=
  match b with
  | .ks => [.readKs i]
  | .db => [.readDb i]
  | .tx => [.readTx i]

/-- The value of `CONV` a convention's name stands for (30_encoding.md R84). -/
def conventionWord : Convention → Word
  | .prepend => 0#32
  | .topfb => 1#32

/-- The command of `CLASSIFY` with a strategy's name (30_encoding.md R83, R84). -/
def classifyCommand : Strategy → Instr
  | .exact => .classifyExact
  | .twoval => .classifyTwoval

/-- `TAPS t0, …, t(m-1)` (30_encoding.md R85). -/
def lineTaps (ts : List Word) : List Access :=
  (ts.zipIdx.flatMap (fun tk => lineWr (.tap tk.2) tk.1)) ++ lineWr .ntap (BitVec.ofNat 32 ts.length)

/-- `CONFIG c, n, s` (30_encoding.md R85). -/
def lineConfig (c n s : Word) : List Access := lineWr .conv c ++ lineWr .degree n ++ lineWr .seed s

/-- `GENL len` (30_encoding.md R85). -/
def lineGenl (len : Word) : List Access := lineWr .len len ++ lineCmd .gen

/-- `ANALYZE s`, `n` the `DEGREE` last written in the script (30_encoding.md R85; log entry 17). -/
def lineAnalyze (n : Nat) (st : Strategy) : List Access :=
  lineWr .len (BitVec.ofNat 32 (3 * (2 ^ n - 1))) ++ lineCmd .gen ++ lineCmd (classifyCommand st)

/-- `TEXT "…"`, the text as code points (30_encoding.md R85). -/
def lineText (cs : List Word) : List Access :=
  (cs.zipIdx.map (fun cj => Access.writeTx cj.2 cj.1)) ++ lineWr .txlen (BitVec.ofNat 32 cs.length)

/-- `KEY b0 … b(m-1)` (30_encoding.md R85). -/
def lineKey (bs : List Bit) : List Access :=
  (bs.zipIdx.map (fun bi => Access.writeKs bi.2 bi.1)) ++ lineWr .kslen (BitVec.ofNat 32 bs.length)

/-- `BITS b0 … b(m-1)` (30_encoding.md R85). -/
def lineBits (bs : List Bit) : List Access :=
  (bs.zipIdx.map (fun bi => Access.writeDb bi.2 bi.1)) ++ lineWr .dblen (BitVec.ofNat 32 bs.length)

end Sys2Proof.Machine
end

