-- ==== Sys2Proof/Safety.lean ====
section
/-! DEFINITION. What counts as a safe state, and the notions the statements are written in. -/

namespace Sys2Proof.Machine

/-- A tap entry in the range of the convention `CONV` selects (40_lfsr_engine.md R91 (d)). -/
abbrev TapInRange (conv : Word) (n t : Nat) : Prop :=
  (conv = 0#32 → t < n) ∧ (conv = 1#32 → 1 ≤ t ∧ t ≤ n)

/-- A valid configuration: 40_lfsr_engine.md R91 (a) to (e). -/
abbrev ConfigValid (p : Params) (s : State) : Prop :=
  (s.conv = 0#32 ∨ s.conv = 1#32) ∧
  (1 ≤ s.degree.toNat ∧ s.degree.toNat ≤ p.nmax) ∧
  (1 ≤ s.ntap.toNat ∧ s.ntap.toNat ≤ p.tmax) ∧
  (∀ t ∈ tapsOf s, TapInRange s.conv s.degree.toNat t) ∧
  s.seed >>> s.degree.toNat = 0#32

/-- The contexts `ERRINFO` may hold beside each code (60_exceptions.md R152, R165). -/
def ErrinfoLegal (p : Params) (code : ErrCode) (info : Word) : Prop :=
  match code with
  | .ok => info = 0#32
  | .invalidConfig => 1 ≤ (info >>> 24).toNat ∧ (info >>> 24).toNat ≤ 6 ∧ (info.setWidth 24).toNat < 256
  | .invalidSequence => info = 0#32
  | .lengthMismatch => info.toNat ≤ p.lmax
  | .malformedBits => info.toNat ≤ p.lmax ∧ info.toNat % 8 ≠ 0
  | .encodingError => info.toNat < p.cmax
  | .illegalCommand => ∀ i, decode info ≠ .ok i
  | .capacityExceeded => p.cmax < info.toNat

/-- The invariant of the machine: what every state it can be in satisfies. -/
structure Inv (p : Params) (s : State) : Prop where
  /-- The buffers are in canonical form. -/
  ks_wf : s.ks.wf
  db_wf : s.db.wf
  tx_wf : s.tx.wf
  /-- No cell at or beyond a capacity is listed (20_memory.md R43). -/
  ks_within : s.ks.within p.lmax
  db_within : s.db.within p.lmax
  tx_within : s.tx.within p.cmax
  /-- The tap table has `TMAX` entries (10_state.md R28). -/
  tap_length : s.tap.length = p.tmax
  /-- `S` is a register of `NMAX` bits (10_state.md R16). -/
  lfsr_width : s.lfsr.toNat < 2 ^ p.nmax
  /-- An open run has a valid configuration and a state of `DEGREE` bits (40_lfsr_engine.md R102, R107). -/
  run_valid : s.run = true → ConfigValid p s ∧ s.lfsr.toNat < 2 ^ s.degree.toNat
  /-- A measured period fits a window (41_period_classifier.md R111). -/
  period_bound : s.period.toNat ≤ p.lmax
  /-- `MAXPER` is `2^n - 1` for a legal degree (41_period_classifier.md R115). -/
  maxper_bound : s.maxper.toNat < 2 ^ p.nmax
  /-- `CLASS` is 0 exactly while there is no classification (41_period_classifier.md R122). -/
  class_maxper : s.cls = .none ↔ s.maxper = 0#32
  class_period : s.cls ≠ .none → s.period ≠ 0#32
  /-- `ERRINFO` fits `STATUS.ERR` (60_exceptions.md R165). -/
  errinfo_legal : ErrinfoLegal p s.err s.errinfo

/-- The outcome of the commands of a list, one after the other. -/
def execAll : List Instr → State → Host.Outcome State Fault Refusal
  | [], s => .next s
  | i :: rest, s =>
    match exec i s with
    | .next t => execAll rest t
    | .fault f => .fault f
    | .refused r => .refused r

/-- The errors a command can raise (60_exceptions.md R164). -/
def mayRaise : Instr → List ErrCode
  | .init => [.invalidConfig]
  | .step => [.invalidConfig, .capacityExceeded]
  | .gen => [.invalidConfig, .capacityExceeded]
  | .period => [.invalidSequence, .capacityExceeded]
  | .classifyExact => [.invalidConfig, .invalidSequence, .capacityExceeded]
  | .classifyTwoval => [.invalidConfig, .invalidSequence, .capacityExceeded]
  | .t2b => [.encodingError, .capacityExceeded]
  | .b2t => [.malformedBits, .capacityExceeded]
  | .xor => [.lengthMismatch, .capacityExceeded]
  | .enc => [.lengthMismatch, .encodingError, .capacityExceeded]
  | .dec => [.lengthMismatch, .malformedBits, .capacityExceeded]

/-- The access names a register or a cell that does not exist (10_state.md R35, 20_memory.md R43). -/
def Access.missing (p : Params) : Access → Prop
  | .readReg r => r = 15 ∨ 16 + p.tmax ≤ r
  | .writeReg r _ => r = 15 ∨ 16 + p.tmax ≤ r
  | .readKs a => p.lmax ≤ a
  | .writeKs a _ => p.lmax ≤ a
  | .readDb a => p.lmax ≤ a
  | .writeDb a _ => p.lmax ≤ a
  | .readTx a => p.cmax ≤ a
  | .writeTx a _ => p.cmax ≤ a
  | .reset => False

/-- The number of a configuration register (10_state.md R34). -/
abbrev IsConfigNumber (p : Params) (r : Nat) : Prop := (3 ≤ r ∧ r ≤ 6) ∨ (16 ≤ r ∧ r < 16 + p.tmax)

/-- A configuration in the ranges of 40_lfsr_engine.md R91, for any degree up to 32. -/
abbrev LfsrConfig.Valid (c : LfsrConfig) : Prop :=
  (1 ≤ c.degree ∧ c.degree ≤ 32) ∧ c.taps ≠ [] ∧
  (∀ t ∈ c.taps, match c.conv with | .prepend => t < c.degree | .topfb => 1 ≤ t ∧ t ≤ c.degree) ∧
  c.seed.toNat < 2 ^ c.degree

/-- The bit that leaves the register takes part in the feedback (41_period_classifier.md R123 (b)). -/
abbrev LfsrConfig.LeavingBitTapped (c : LfsrConfig) : Prop :=
  match c.conv with
  | .prepend => c.taps.count (c.degree - 1) % 2 = 1
  | .topfb => c.taps.count 1 % 2 = 1 ∧ c.degree ∈ c.taps

/-- The list of the low `n` bits of `S`, bit `i` element `i` (10_state.md R17). -/
def stateList (n : Nat) (s : Word) : List Bit := (List.range n).map (bitAt s)

/-- `rev_n(x)`: bit `i` of it is bit `n - 1 - i` of `x` (40_lfsr_engine.md R108). -/
def revBits (n : Nat) (x : Word) : Word :=
  BitVec.ofNat 32 (((List.range n).map (fun i => (bitAt x (n - 1 - i)).toNat * 2 ^ i)).sum)

/-- The XOR over a tap list of the bits at the listed positions, as a count: 1 when an odd number of entries, counted
with multiplicity, read a 1 (40_lfsr_engine.md R95, R97, R99). -/
def oddCount (taps : List Nat) (readsOne : Nat → Bool) : Nat := (taps.countP readsOne) % 2

/-- `p` is a period of `q` (41_period_classifier.md R110). -/
abbrev IsPeriodOf (q : List Bit) (p : Nat) : Prop :=
  1 ≤ p ∧ ∀ i < q.length, p ≤ i → q[i]? = q[i % p]?

/-- The cells 0 to `n - 1` of a buffer, in order (20_memory.md R54). -/
def cells {w : Nat} (m : Memory w) (n : Nat) : List (BitVec w) := (List.range n).map (fun i => m.read i)

end Sys2Proof.Machine
end

