-- ==== Sys2Proof/Certificates/Slice0/Obligations.lean ====
section
/-! DEFINITION. The statements about the machine. Sizes are the reference sizes `Config.params` (log entry 1) where a
statement does not quantify over them. A docstring names the rule of spec/ a statement formalises. -/

open Sys2Proof Sys2Proof.Machine

/-! ## Command words and the step -/

/-- The eleven words of 30_encoding.md R76 decode to their commands. -/
def Obligations.ElevenWordsDecode : Prop :=
  decode 0x00000001#32 = .ok .init ∧ decode 0x00000002#32 = .ok .step ∧ decode 0x00000003#32 = .ok .gen ∧
  decode 0x00000010#32 = .ok .period ∧ decode 0x00000011#32 = .ok .classifyExact ∧
  decode 0x00000111#32 = .ok .classifyTwoval ∧ decode 0x00000020#32 = .ok .t2b ∧
  decode 0x00000021#32 = .ok .b2t ∧ decode 0x00000022#32 = .ok .xor ∧ decode 0x00000023#32 = .ok .enc ∧
  decode 0x00000024#32 = .ok .dec

/-- 30_encoding.md R86: a word is legal exactly when it is the word of a command, and then it is that command. -/
def Obligations.DecodeAndEncodeAgree : Prop :=
  (∀ i : Instr, i.wf = true → decode (encode i) = .ok i) ∧
  (∀ (w : Word) (i : Instr), decode w = .ok i → w = encode i) ∧
  (∀ w : Word, (∀ i : Instr, w ≠ encode i) → ∃ e, decode w = .error e)

/-- 30_encoding.md R80, 60_exceptions.md R166: which words are illegal, and what writing one does. -/
def Obligations.IllegalWordRaisesIllegalCommand : Prop :=
  ∀ (s : State) (w : Word) (rest : List Access), s.pending = .writeReg 0 w :: rest →
    ((w.toNat / 2 ^ 16 ≠ 0 ∨
        w.toNat % 256 ∉ [0x01, 0x02, 0x03, 0x10, 0x11, 0x20, 0x21, 0x22, 0x23, 0x24] ∨
        (w.toNat % 256 ≠ 0x11 ∧ w.toNat / 256 % 256 ≠ 0) ∨
        (w.toNat % 256 = 0x11 ∧ 2 ≤ w.toNat / 256 % 256)) →
      step s = .next { s with pending := rest, err := .illegalCommand, errinfo := w }) ∧
    (¬ (w.toNat / 2 ^ 16 ≠ 0 ∨
        w.toNat % 256 ∉ [0x01, 0x02, 0x03, 0x10, 0x11, 0x20, 0x21, 0x22, 0x23, 0x24] ∨
        (w.toNat % 256 ≠ 0x11 ∧ w.toNat / 256 % 256 ≠ 0) ∨
        (w.toNat % 256 = 0x11 ∧ 2 ≤ w.toNat / 256 % 256)) →
      ∃ i, decode w = .ok i ∧ step s = exec i { s with pending := rest })

/-- 10_state.md R22: a write to `CMD` executes the command and is not stored; a read of `CMD` gives 0. -/
def Obligations.StepRunsTheDecodedCommand : Prop :=
  (∀ (s : State) (w : Word) (i : Instr) (rest : List Access),
    s.pending = .writeReg 0 w :: rest → decode w = .ok i → step s = exec i { s with pending := rest }) ∧
  (∀ (s : State) (rest : List Access), s.pending = .readReg 0 :: rest →
    step s = .next { s with pending := rest, answers := s.answers ++ [0#32] })

/-- The model's own (log entry 2): with no access pending a step changes nothing, and a command word placed by
`withFetchWord` is what the very next step runs. -/
def Obligations.IdleAndPlacedCommand : Prop :=
  (∀ s : State, s.pending = [] → step s = .next s) ∧
  (∀ (s : State) (w : Word) (i : Instr), decode w = .ok i → step (s.withFetchWord 32 w.toNat) = exec i s)

/-! ## Engine -/

/-- 40_lfsr_engine.md R91: `INIT` and `GEN` validate the configuration, (a) to (e), whatever the state. -/
def Obligations.InitAndGenValidate : Prop :=
  ∀ s : State,
    (∃ t, exec .init s = .next t ∧ (t.err = .ok ↔ ConfigValid Config.params s) ∧
      (t.err = .invalidConfig ↔ ¬ ConfigValid Config.params s)) ∧
    (∃ t, exec .gen s = .next t ∧ (t.err = .invalidConfig ↔ ¬ ConfigValid Config.params s))

/-- 40_lfsr_engine.md R92: the first check that fails, in order, is reported with its context, and nothing else
changes. -/
def Obligations.FirstFailingCheckIsReported : Prop :=
  ∀ (i : Instr) (s : State), i = .init ∨ i = .gen →
    (1 < s.conv.toNat →
      exec i s = .next { s with err := .invalidConfig, errinfo := 0x01000000#32 }) ∧
    (s.conv.toNat ≤ 1 → (s.degree.toNat < 1 ∨ Config.params.nmax < s.degree.toNat) →
      exec i s = .next { s with err := .invalidConfig, errinfo := 0x02000000#32 }) ∧
    (s.conv.toNat ≤ 1 → 1 ≤ s.degree.toNat → s.degree.toNat ≤ Config.params.nmax →
      (s.ntap.toNat < 1 ∨ Config.params.tmax < s.ntap.toNat) →
      exec i s = .next { s with err := .invalidConfig, errinfo := 0x03000000#32 }) ∧
    (s.conv.toNat ≤ 1 → 1 ≤ s.degree.toNat → s.degree.toNat ≤ Config.params.nmax →
      1 ≤ s.ntap.toNat → s.ntap.toNat ≤ Config.params.tmax →
      (∀ k t, (tapsOf s)[k]? = some t → ¬ TapInRange s.conv s.degree.toNat t →
        (∀ j < k, ∀ u, (tapsOf s)[j]? = some u → TapInRange s.conv s.degree.toNat u) →
        exec i s = .next { s with
          err := .invalidConfig
          errinfo := 0x04000000#32 ||| BitVec.ofNat 32 k }) ∧
      ((∀ t ∈ tapsOf s, TapInRange s.conv s.degree.toNat t) →
        ∀ b, s.degree.toNat ≤ b → s.seed.getLsbD b = true →
          (∀ j, s.degree.toNat ≤ j → j < b → s.seed.getLsbD j = false) →
          exec i s = .next { s with
            err := .invalidConfig
            errinfo := 0x05000000#32 ||| BitVec.ofNat 32 b }))

/-- 40_lfsr_engine.md R101: `INIT` on a valid configuration opens a run from the seed, an all-zero one included; on
another it records the error and changes nothing else. -/
def Obligations.InitOpensARun : Prop :=
  ∀ s : State,
    (ConfigValid Config.params s →
      exec .init s = .next { s with err := .ok, errinfo := 0#32, lfsr := s.seed, kslen := 0#32, run := true }) ∧
    (¬ ConfigValid Config.params s →
      ∃ info, exec .init s = .next { s with err := .invalidConfig, errinfo := info })

/-- 40_lfsr_engine.md R95: the PREPEND step on a list. -/
def Obligations.PrependStepOnLists : Prop :=
  ∀ (taps : List Nat) (state : List Bit), state ≠ [] → (∀ t ∈ taps, t < state.length) →
    (stepList taps state).1.length = state.length ∧
    state[state.length - 1]? = some (stepList taps state).2 ∧
    (∃ fb : Bit, (stepList taps state).1[0]? = some fb ∧
      fb.toNat = oddCount taps (fun t => state[t]? == some 1#1)) ∧
    (∀ i, 1 ≤ i → i < state.length → (stepList taps state).1[i]? = state[i - 1]?)

/-- 40_lfsr_engine.md R96, which the spec derives from R95: the PREPEND step on the register is the step on the list
bit for bit, under the mapping of 10_state.md R17. -/
def Obligations.PrependStepOnRegisterIsStepOnList : Prop :=
  ∀ (n : Nat) (taps : List Nat) (s : Word), 1 ≤ n → n ≤ 32 → (∀ t ∈ taps, t < n) →
    stateList n (stepPrepend n taps s).1 = (stepList taps (stateList n s)).1 ∧
    (stepPrepend n taps s).2 = (stepList taps (stateList n s)).2 ∧
    (stepPrepend n taps s).1.toNat < 2 ^ n

/-- 40_lfsr_engine.md R97: the TOPFB step on integers, `maxTap` the largest entry of the list; and, as R98 has it, the
feedback merges by OR into bit `maxTap - 1`. -/
def Obligations.TopfbStepOnIntegers : Prop :=
  ∀ (n : Nat) (taps : List Nat) (s : Word), 1 ≤ n → n ≤ 32 → taps ≠ [] → (∀ t ∈ taps, 1 ≤ t ∧ t ≤ n) →
    s.toNat < 2 ^ n →
    ∃ m, m ∈ taps ∧ (∀ t ∈ taps, t ≤ m) ∧
      (stepTopfb taps s).2.toNat = s.toNat % 2 ∧
      (stepTopfb taps s).1.toNat =
        (s.toNat >>> 1) ||| (oddCount taps (fun t => s.toNat.testBit (t - 1)) <<< (m - 1)) ∧
      (stepTopfb taps s).1.toNat.testBit (m - 1) =
        (s.toNat.testBit m || (oddCount taps (fun t => s.toNat.testBit (t - 1)) == 1))

/-- 40_lfsr_engine.md R99, which the spec derives: the order of the taps changes nothing, and an entry listed twice
cancels itself in the feedback but counts for `maxTap`: below an entry of the list it changes nothing, and above every
entry the feedback of the others is inserted at its own bit. -/
def Obligations.TapOrderAndMultiplicity : Prop :=
  (∀ (c : LfsrConfig) (ts : List Nat) (s : Word), c.taps.Perm ts →
    LfsrConfig.step { c with taps := ts } s = c.step s) ∧
  (∀ (n t : Nat) (taps : List Nat) (s : Word), stepPrepend n (t :: t :: taps) s = stepPrepend n taps s) ∧
  (∀ (t u : Nat) (taps : List Nat) (s : Word), u ∈ taps → t ≤ u →
    stepTopfb (t :: t :: taps) s = stepTopfb taps s) ∧
  (∀ (t : Nat) (taps : List Nat) (s : Word), t ≤ 32 → (∀ u ∈ taps, u < t) →
    (stepTopfb (t :: t :: taps) s).1.toNat =
      (s.toNat >>> 1) ||| (oddCount taps (fun u => s.toNat.testBit (u - 1)) <<< (t - 1)) ∧
    (stepTopfb (t :: t :: taps) s).2.toNat = s.toNat % 2)

/-- 40_lfsr_engine.md R107, which the spec derives: a state of `n` bits steps to a state of `n` bits. -/
def Obligations.StepKeepsTheWidth : Prop :=
  ∀ (c : LfsrConfig) (s : Word), c.Valid → s.toNat < 2 ^ c.degree → (c.step s).1.toNat < 2 ^ c.degree

/-- 40_lfsr_engine.md R106, which the spec derives: the zero state is a fixed point, and the run from a zero seed is
all zeros. -/
def Obligations.ZeroStateIsAFixedPoint : Prop :=
  (∀ c : LfsrConfig, c.step 0#32 = (0#32, 0#1)) ∧
  (∀ (c : LfsrConfig) (length : Nat), c.seed = 0#32 → c.generate length = List.replicate length 0#1)

/-- 40_lfsr_engine.md R102: `STEP`. -/
def Obligations.StepAppendsOneBit : Prop :=
  ∀ s : State,
    (s.run = false → exec .step s = .next { s with err := .invalidConfig, errinfo := 0x06000000#32 }) ∧
    (s.run = true → Config.params.lmax ≤ s.kslen.toNat →
      exec .step s = .next { s with err := .capacityExceeded, errinfo := s.kslen }) ∧
    (s.run = true → s.kslen.toNat < Config.params.lmax →
      ∃ t, exec .step s = .next t ∧
        (s.conv = 0#32 → (t.lfsr, t.out) = stepPrepend s.degree.toNat (tapsOf s) s.lfsr) ∧
        (s.conv ≠ 0#32 → (t.lfsr, t.out) = stepTopfb (tapsOf s) s.lfsr) ∧
        t.kslen.toNat = s.kslen.toNat + 1 ∧
        t.ks.read s.kslen.toNat = t.out ∧
        (∀ a, a ≠ s.kslen.toNat → t.ks.read a = s.ks.read a) ∧
        t = { s with
          err := .ok
          errinfo := 0#32
          lfsr := t.lfsr
          out := t.out
          kslen := t.kslen
          ks := t.ks })

/-- 40_lfsr_engine.md R100: `generate` gives exactly `length` bits, bit `i` the output of the step from state `i`; an
invalid configuration is `InvalidConfig` whatever the length. -/
def Obligations.GenerateGivesTheRunsBits : Prop :=
  (∀ (c : LfsrConfig) (length : Nat),
    (c.generate length).length = length ∧
    ∀ i < length, (c.generate length)[i]? = some (c.step (c.stateAfter i)).2) ∧
  (∀ s : State, ¬ ConfigValid Config.params s → ∃ t, exec .gen s = .next t ∧ t.err = .invalidConfig)

/-- 40_lfsr_engine.md R103: `GEN`. -/
def Obligations.GenWritesTheSequence : Prop :=
  ∀ s : State,
    (¬ ConfigValid Config.params s →
      ∃ info, exec .gen s = .next { s with err := .invalidConfig, errinfo := info }) ∧
    (ConfigValid Config.params s → Config.params.lmax < s.len.toNat →
      exec .gen s = .next { s with err := .capacityExceeded, errinfo := s.len }) ∧
    (ConfigValid Config.params s → s.len.toNat ≤ Config.params.lmax →
      ∃ t, exec .gen s = .next t ∧
        t.lfsr = (configOf s).stateAfter s.len.toNat ∧
        (∀ i < s.len.toNat, t.ks.read i = ((configOf s).step ((configOf s).stateAfter i)).2) ∧
        (∀ a, s.len.toNat ≤ a → t.ks.read a = s.ks.read a) ∧
        (s.len.toNat = 0 → t.out = s.out) ∧
        (1 ≤ s.len.toNat → t.out = t.ks.read (s.len.toNat - 1)) ∧
        t = { s with
          err := .ok
          errinfo := 0#32
          lfsr := t.lfsr
          out := t.out
          kslen := s.len
          run := true
          ks := t.ks })

/-- 40_lfsr_engine.md R104, which the spec derives: `GEN` is `INIT` and `LEN` times `STEP`, and a run goes on after
`GEN` by further `STEP`s. -/
def Obligations.GenIsInitAndSteps : Prop :=
  ∀ s : State, s.ks.wf → ConfigValid Config.params s → s.len.toNat ≤ Config.params.lmax →
    (∃ t, exec .gen s = .next t ∧ execAll (.init :: List.replicate s.len.toNat .step) s = .next t) ∧
    (∀ m, s.len.toNat + m ≤ Config.params.lmax →
      ∃ t, execAll (.gen :: List.replicate m .step) s = .next t ∧
        exec .gen { s with len := BitVec.ofNat 32 (s.len.toNat + m) } =
          .next { t with len := BitVec.ofNat 32 (s.len.toNat + m) })

/-- 40_lfsr_engine.md R105, which the spec derives: the sequence depends on the configuration and the length alone, and
a shorter one is the beginning of a longer one. -/
def Obligations.GenDependsOnConfigurationAndLength : Prop :=
  (∀ s s' : State, ConfigValid Config.params s → s.len.toNat ≤ Config.params.lmax →
    s'.conv = s.conv → s'.degree = s.degree → s'.ntap = s.ntap → tapsOf s' = tapsOf s → s'.seed = s.seed →
    s'.len = s.len →
    ∃ t t', exec .gen s = .next t ∧ exec .gen s' = .next t' ∧
      ksSeq t' = ksSeq t ∧ t'.kslen = t.kslen ∧ t'.lfsr = t.lfsr ∧ t'.err = t.err) ∧
  (∀ (c : LfsrConfig) (a b : Nat), a ≤ b → c.generate a = (c.generate b).take a)

/-- 40_lfsr_engine.md R108, which the spec derives: a PREPEND list that holds 0 and the TOPFB list of `n - a` give the
same sequence from bit-reversed seeds, with bit-reversed states. -/
def Obligations.ConventionsCorrespond : Prop :=
  ∀ (n : Nat) (taps : List Nat) (seed : Word), 1 ≤ n → n ≤ 32 → 0 ∈ taps → (∀ a ∈ taps, a < n) →
    seed.toNat < 2 ^ n →
    let cp : LfsrConfig := { conv := .prepend, degree := n, taps := taps, seed := seed }
    let ct : LfsrConfig :=
      { conv := .topfb, degree := n, taps := taps.map (fun a => n - a), seed := revBits n seed }
    (∀ length, ct.generate length = cp.generate length) ∧
    (∀ i, ct.stateAfter i = revBits n (cp.stateAfter i))

/-! ## Classifier -/

/-- 41_period_classifier.md R110: the measured period is the least one. -/
def Obligations.PeriodIsTheLeast : Prop :=
  ∀ q : List Bit, q ≠ [] → IsPeriodOf q (period q) ∧ ∀ p, p < period q → ¬ IsPeriodOf q p

/-- 41_period_classifier.md R111 and R113, which the spec derives: bounds, the form with `i - p`, and period 1. -/
def Obligations.PeriodBoundsAndShift : Prop :=
  ∀ q : List Bit, q ≠ [] →
    (1 ≤ period q ∧ period q ≤ q.length) ∧
    (∀ p, 1 ≤ p → (IsPeriodOf q p ↔ ∀ i < q.length, p ≤ i → q[i]? = q[i - p]?)) ∧
    (period q = 1 ↔ ∀ x ∈ q, ∀ y ∈ q, x = y)

/-- 41_period_classifier.md R120: `PERIOD`. -/
def Obligations.PeriodCommand : Prop :=
  ∀ s : State,
    (Config.params.lmax < s.kslen.toNat →
      exec .period s = .next { s with err := .capacityExceeded, errinfo := s.kslen }) ∧
    (s.kslen.toNat = 0 → exec .period s = .next { s with err := .invalidSequence, errinfo := 0#32 }) ∧
    (1 ≤ s.kslen.toNat → s.kslen.toNat ≤ Config.params.lmax →
      ∃ p, IsPeriodOf (cells s.ks s.kslen.toNat) p ∧
        (∀ p' < p, ¬ IsPeriodOf (cells s.ks s.kslen.toNat) p') ∧
        ∃ v : Word, v.toNat = p ∧ exec .period s = .next { s with err := .ok, errinfo := 0#32, period := v })

/-- 41_period_classifier.md R121, with R116 and R117: `CLASSIFY` under both strategies. -/
def Obligations.ClassifyCommands : Prop :=
  ∀ s : State,
    (∀ i : Instr, i = .classifyExact ∨ i = .classifyTwoval →
      (Config.params.lmax < s.kslen.toNat →
        exec i s = .next { s with err := .capacityExceeded, errinfo := s.kslen }) ∧
      (s.kslen.toNat = 0 → exec i s = .next { s with err := .invalidSequence, errinfo := 0#32 }) ∧
      (1 ≤ s.kslen.toNat → s.kslen.toNat ≤ Config.params.lmax →
        (s.degree.toNat < 1 ∨ Config.params.nmax < s.degree.toNat) →
        exec i s = .next { s with err := .invalidConfig, errinfo := 0x02000000#32 })) ∧
    (1 ≤ s.kslen.toNat → s.kslen.toNat ≤ Config.params.lmax → 1 ≤ s.degree.toNat →
      s.degree.toNat ≤ Config.params.nmax →
      ∃ p v m, IsPeriodOf (cells s.ks s.kslen.toNat) p ∧
        (∀ p' < p, ¬ IsPeriodOf (cells s.ks s.kslen.toNat) p') ∧
        BitVec.toNat (w := 32) v = p ∧ BitVec.toNat (w := 32) m = 2 ^ s.degree.toNat - 1 ∧
        exec .classifyExact s = .next { s with
          err := .ok
          errinfo := 0#32
          period := v
          maxper := m
          cls := if p = 2 ^ s.degree.toNat - 1 then .primitive
            else if p = 1 then .reducible else .irreducibleNonPrimitive } ∧
        exec .classifyTwoval s = .next { s with
          err := .ok
          errinfo := 0#32
          period := v
          maxper := m
          cls := if 0#1 ∈ cells s.ks s.kslen.toNat ∧ 1#1 ∈ cells s.ks s.kslen.toNat then
              (if p = 2 ^ s.degree.toNat - 1 then .primitive else .irreducibleNonPrimitive)
            else .reducible })

/-- 41_period_classifier.md R119, which the spec derives: the strategies part only at degree 1, on constant
sequences. -/
def Obligations.StrategiesPartOnlyAtDegreeOne : Prop :=
  ∀ (q : List Bit) (n : Nat), q ≠ [] →
    (2 ≤ n → classifyExact q n = classifyTwoval q n) ∧
    ((∀ x ∈ q, ∀ y ∈ q, x = y) → classifyExact q 1 = .primitive ∧ classifyTwoval q 1 = .reducible) ∧
    (¬ (∀ x ∈ q, ∀ y ∈ q, x = y) →
      classifyExact q 1 = .irreducibleNonPrimitive ∧ classifyTwoval q 1 = .irreducibleNonPrimitive)

/-- 41_period_classifier.md R123 (b), which the spec derives: when the leaving bit takes part in the feedback, the
measured period of any window is at most `2^n - 1`. -/
def Obligations.PeriodBoundWhenLeavingBitTapped : Prop :=
  ∀ (c : LfsrConfig) (length : Nat), c.Valid → c.LeavingBitTapped → 1 ≤ length →
    period (c.generate length) ≤ maxPeriod c.degree

/-! ## Codec -/

/-- 42_cipher_codec.md R138: `T2B`. -/
def Obligations.TextToBitsCommand : Prop :=
  ∀ s : State,
    (Config.params.cmax < s.txlen.toNat →
      exec .t2b s = .next { s with err := .capacityExceeded, errinfo := s.txlen }) ∧
    (s.txlen.toNat ≤ Config.params.cmax →
      ∀ j < s.txlen.toNat, 255 < (s.tx.read j).toNat → (∀ k < j, (s.tx.read k).toNat ≤ 255) →
        exec .t2b s = .next { s with err := .encodingError, errinfo := BitVec.ofNat 32 j }) ∧
    (s.txlen.toNat ≤ Config.params.cmax → (∀ j < s.txlen.toNat, (s.tx.read j).toNat ≤ 255) →
      ∃ t, exec .t2b s = .next t ∧
        t.dblen.toNat = 8 * s.txlen.toNat ∧
        (∀ j < s.txlen.toNat, ∀ b < 8,
          (t.db.read (8 * j + b)).toNat = (s.tx.read j).toNat / 2 ^ (7 - b) % 2) ∧
        (∀ a, 8 * s.txlen.toNat ≤ a → t.db.read a = s.db.read a) ∧
        t = { s with err := .ok, errinfo := 0#32, db := t.db, dblen := t.dblen })

/-- 42_cipher_codec.md R139: `B2T`. -/
def Obligations.BitsToTextCommand : Prop :=
  ∀ s : State,
    (Config.params.lmax < s.dblen.toNat →
      exec .b2t s = .next { s with err := .capacityExceeded, errinfo := s.dblen }) ∧
    (s.dblen.toNat ≤ Config.params.lmax → s.dblen.toNat % 8 ≠ 0 →
      exec .b2t s = .next { s with err := .malformedBits, errinfo := s.dblen }) ∧
    (s.dblen.toNat ≤ Config.params.lmax → s.dblen.toNat % 8 = 0 →
      ∃ t, exec .b2t s = .next t ∧
        t.txlen.toNat = s.dblen.toNat / 8 ∧
        (∀ j < s.dblen.toNat / 8,
          (t.tx.read j).toNat = ∑ b ∈ Finset.range 8, (s.db.read (8 * j + b)).toNat * 2 ^ (7 - b)) ∧
        (∀ a, s.dblen.toNat / 8 ≤ a → t.tx.read a = s.tx.read a) ∧
        t = { s with err := .ok, errinfo := 0#32, tx := t.tx, txlen := t.txlen })

/-- 42_cipher_codec.md R140: `XOR`. -/
def Obligations.XorCommand : Prop :=
  ∀ s : State,
    (Config.params.lmax < s.dblen.toNat →
      exec .xor s = .next { s with err := .capacityExceeded, errinfo := s.dblen }) ∧
    (s.dblen.toNat ≤ Config.params.lmax → Config.params.lmax < s.kslen.toNat →
      exec .xor s = .next { s with err := .capacityExceeded, errinfo := s.kslen }) ∧
    (s.dblen.toNat ≤ Config.params.lmax → s.kslen.toNat ≤ Config.params.lmax → s.dblen ≠ s.kslen →
      exec .xor s = .next { s with err := .lengthMismatch, errinfo := s.kslen }) ∧
    (s.dblen.toNat ≤ Config.params.lmax → s.dblen = s.kslen →
      ∃ t, exec .xor s = .next t ∧
        (∀ i < s.dblen.toNat, (t.db.read i).toNat = ((s.db.read i).toNat + (s.ks.read i).toNat) % 2) ∧
        (∀ a, s.dblen.toNat ≤ a → t.db.read a = s.db.read a) ∧
        t = { s with err := .ok, errinfo := 0#32, db := t.db })

/-- 42_cipher_codec.md R141: `ENC`. -/
def Obligations.EncryptCommand : Prop :=
  ∀ s : State,
    (Config.params.cmax < s.txlen.toNat →
      exec .enc s = .next { s with err := .capacityExceeded, errinfo := s.txlen }) ∧
    (s.txlen.toNat ≤ Config.params.cmax → Config.params.lmax < s.kslen.toNat →
      exec .enc s = .next { s with err := .capacityExceeded, errinfo := s.kslen }) ∧
    (s.txlen.toNat ≤ Config.params.cmax → s.kslen.toNat ≤ Config.params.lmax →
      ∀ j < s.txlen.toNat, 255 < (s.tx.read j).toNat → (∀ k < j, (s.tx.read k).toNat ≤ 255) →
        exec .enc s = .next { s with err := .encodingError, errinfo := BitVec.ofNat 32 j }) ∧
    (s.txlen.toNat ≤ Config.params.cmax → s.kslen.toNat ≤ Config.params.lmax →
      (∀ j < s.txlen.toNat, (s.tx.read j).toNat ≤ 255) → 8 * s.txlen.toNat ≠ s.kslen.toNat →
      exec .enc s = .next { s with err := .lengthMismatch, errinfo := s.kslen }) ∧
    (s.txlen.toNat ≤ Config.params.cmax → (∀ j < s.txlen.toNat, (s.tx.read j).toNat ≤ 255) →
      8 * s.txlen.toNat = s.kslen.toNat →
      ∃ t, exec .enc s = .next t ∧
        (∀ j < s.txlen.toNat, ∀ b < 8,
          (t.db.read (8 * j + b)).toNat =
            ((s.tx.read j).toNat / 2 ^ (7 - b) % 2 + (s.ks.read (8 * j + b)).toNat) % 2) ∧
        (∀ a, s.kslen.toNat ≤ a → t.db.read a = s.db.read a) ∧
        t = { s with err := .ok, errinfo := 0#32, db := t.db, dblen := s.kslen })

/-- 42_cipher_codec.md R142: `DEC`. -/
def Obligations.DecryptCommand : Prop :=
  ∀ s : State,
    (Config.params.lmax < s.dblen.toNat →
      exec .dec s = .next { s with err := .capacityExceeded, errinfo := s.dblen }) ∧
    (s.dblen.toNat ≤ Config.params.lmax → Config.params.lmax < s.kslen.toNat →
      exec .dec s = .next { s with err := .capacityExceeded, errinfo := s.kslen }) ∧
    (s.dblen.toNat ≤ Config.params.lmax → s.kslen.toNat ≤ Config.params.lmax → s.dblen ≠ s.kslen →
      exec .dec s = .next { s with err := .lengthMismatch, errinfo := s.kslen }) ∧
    (s.dblen.toNat ≤ Config.params.lmax → s.dblen = s.kslen → s.dblen.toNat % 8 ≠ 0 →
      exec .dec s = .next { s with err := .malformedBits, errinfo := s.dblen }) ∧
    (s.dblen.toNat ≤ Config.params.lmax → s.dblen = s.kslen → s.dblen.toNat % 8 = 0 →
      ∃ t, exec .dec s = .next t ∧
        t.txlen.toNat = s.dblen.toNat / 8 ∧
        (∀ j < s.dblen.toNat / 8,
          (t.tx.read j).toNat = ∑ b ∈ Finset.range 8,
            ((s.db.read (8 * j + b)).toNat + (s.ks.read (8 * j + b)).toNat) % 2 * 2 ^ (7 - b)) ∧
        (∀ a, s.dblen.toNat / 8 ≤ a → t.tx.read a = s.tx.read a) ∧
        t = { s with err := .ok, errinfo := 0#32, tx := t.tx, txlen := t.txlen })

/-- 42_cipher_codec.md R132, which the spec derives: the two conversions are inverse to each other. -/
def Obligations.ConversionsAreInverse : Prop :=
  (∀ text : List Word, (∀ c ∈ text, c.toNat ≤ 255) →
    ∃ bits, textToBits text = .ok bits ∧ bitsToText bits = .ok text) ∧
  (∀ bits : List Bit, bits.length % 8 = 0 →
    ∃ text, bitsToText bits = .ok text ∧ textToBits text = .ok bits)

/-- 42_cipher_codec.md R136: decryption undoes encryption, for every keystream of the right length. -/
def Obligations.DecryptUndoesEncrypt : Prop :=
  ∀ (plaintext : List Word) (keystream : List Bit), (∀ c ∈ plaintext, c.toNat ≤ 255) →
    keystream.length = 8 * plaintext.length →
    ∃ ciphertext, encrypt plaintext keystream = .ok ciphertext ∧ decrypt ciphertext keystream = .ok plaintext

/-- 42_cipher_codec.md R137: `xorTransform` is its own inverse, commutes, and the zero keystream is the identity. -/
def Obligations.XorTransformIsItsOwnInverse : Prop :=
  ∀ data keystream : List Bit, data.length = keystream.length →
    (∃ r, xorTransform data keystream = .ok r ∧ xorTransform r keystream = .ok data) ∧
    xorTransform data keystream = xorTransform keystream data ∧
    xorTransform data (List.replicate data.length 0#1) = .ok data

/-- The round trip on the machine: after `ENC`, `DEC` recovers the text from `DB` and `KS` alone, whatever the host
put in `TX` meanwhile. -/
def Obligations.DecAfterEncRecoversTheText : Prop :=
  ∀ (s : State) (tx' : Memory 32) (txlen' : Word), s.txlen.toNat ≤ Config.params.cmax →
    (∀ j < s.txlen.toNat, (s.tx.read j).toNat ≤ 255) → 8 * s.txlen.toNat = s.kslen.toNat →
    ∃ t u, exec .enc s = .next t ∧ exec .dec { t with tx := tx', txlen := txlen' } = .next u ∧
      u.err = .ok ∧ u.txlen = s.txlen ∧ (∀ j < s.txlen.toNat, u.tx.read j = s.tx.read j) ∧ u.db = t.db

/-- `XOR` twice restores the block. -/
def Obligations.XorTwiceRestoresTheBlock : Prop :=
  ∀ s : State, s.db.wf → s.dblen.toNat ≤ Config.params.lmax → s.dblen = s.kslen →
    ∃ t, exec .xor s = .next t ∧ exec .xor t = .next { s with err := .ok, errinfo := 0#32 }

/-- 42_cipher_codec.md R141, R142: `ENC` is `T2B` then `XOR`, and `DEC` is `XOR` then `B2T` but for `DB`, where both
parts succeed. -/
def Obligations.EncAndDecAreTheirParts : Prop :=
  (∀ s t u : State, s.db.wf → exec .t2b s = .next t → t.err = .ok → exec .xor t = .next u → u.err = .ok →
    exec .enc s = .next u) ∧
  (∀ s t u : State, exec .xor s = .next t → t.err = .ok → exec .b2t t = .next u → u.err = .ok →
    exec .dec s = .next { u with db := s.db })

/-! ## Errors, and rules about all commands -/

/-- 60_exceptions.md R160: every command ends, and one that ends with an error changes `STATUS.ERR` and `ERRINFO` and
nothing else. -/
def Obligations.FailedCommandChangesNothingElse : Prop :=
  ∀ (i : Instr) (s : State), ∃ t, exec i s = .next t ∧
    (t.err ≠ .ok → t = { s with err := t.err, errinfo := t.errinfo })

/-- What `ERRINFO` holds after any word is written to `CMD`, from 60_exceptions.md R165. Which length `CapacityExceeded`
reports, and which cause a sub-cause of `InvalidConfig` has, the statements of the single commands say. -/
def Obligations.ErrinfoAfterACommand : Prop :=
  ∀ (s : State) (w : Word) (rest : List Access), s.pending = .writeReg 0 w :: rest →
    ∃ t, step s = .next t ∧
      (t.err = .ok → t.errinfo = 0#32) ∧
      (t.err = .invalidConfig → ∃ sub idx, 1 ≤ sub ∧ sub ≤ 6 ∧ idx < 256 ∧
        t.errinfo.toNat = sub * 2 ^ 24 + idx) ∧
      (t.err = .invalidSequence → t.errinfo = 0#32) ∧
      (t.err = .lengthMismatch → t.errinfo = s.kslen) ∧
      (t.err = .malformedBits → t.errinfo = s.dblen) ∧
      (t.err = .encodingError → 255 < (s.tx.read t.errinfo.toNat).toNat ∧ t.errinfo.toNat < s.txlen.toNat ∧
        ∀ k < t.errinfo.toNat, (s.tx.read k).toNat ≤ 255) ∧
      (t.err = .illegalCommand → t.errinfo = w) ∧
      (t.err = .capacityExceeded →
        t.errinfo = s.len ∨ t.errinfo = s.kslen ∨ t.errinfo = s.dblen ∨ t.errinfo = s.txlen)

/-- 60_exceptions.md R164, which the spec derives: which command can raise which error, and that it can. -/
def Obligations.ErrorsByCommand : Prop :=
  (∀ (i : Instr) (s t : State), exec i s = .next t → t.err = .ok ∨ t.err ∈ mayRaise i) ∧
  (∀ (i : Instr) (e : ErrCode), e ∈ mayRaise i → ∃ s t, exec i s = .next t ∧ t.err = e)

/-- 20_memory.md R44, R51, 30_encoding.md R79, 10_state.md R21, which command writes what: `KS` only by the Engine, `DB`
only by `T2B`, `XOR`, `ENC`, `TX` only by `B2T`, `DEC`; no command writes a configuration register, nor the host's side,
which is the model's own (log entry 2). -/
def Obligations.CommandsWriteOnlyTheirOwn : Prop :=
  ∀ (i : Instr) (s : State), ∃ t, exec i s = .next t ∧
    (i ≠ .init → i ≠ .step → i ≠ .gen →
      t.ks = s.ks ∧ t.kslen = s.kslen ∧ t.lfsr = s.lfsr ∧ t.run = s.run ∧ t.out = s.out) ∧
    (i = .init → t.ks = s.ks ∧ t.out = s.out) ∧
    (i ≠ .t2b → i ≠ .xor → i ≠ .enc → t.db = s.db ∧ t.dblen = s.dblen) ∧
    (i = .xor → t.dblen = s.dblen) ∧
    (i ≠ .b2t → i ≠ .dec → t.tx = s.tx ∧ t.txlen = s.txlen) ∧
    (i ≠ .period → i ≠ .classifyExact → i ≠ .classifyTwoval → t.period = s.period) ∧
    (i ≠ .classifyExact → i ≠ .classifyTwoval → t.maxper = s.maxper ∧ t.cls = s.cls) ∧
    t.conv = s.conv ∧ t.degree = s.degree ∧ t.ntap = s.ntap ∧ t.seed = s.seed ∧ t.len = s.len ∧
    t.tap = s.tap ∧ t.pending = s.pending ∧ t.answers = s.answers

/-- 20_memory.md R54: cells at or beyond the length influence no command. Two states that differ in such cells alone go
to states that agree in every register, and in every cell in which they agreed. -/
def Obligations.CellsBeyondTheLengthDoNotInfluence : Prop :=
  ∀ (i : Instr) (s : State) (ks' db' : Memory 1) (tx' : Memory 32),
    (∀ a < s.kslen.toNat, ks'.read a = s.ks.read a) →
    (∀ a < s.dblen.toNat, db'.read a = s.db.read a) →
    (∀ a < s.txlen.toNat, tx'.read a = s.tx.read a) →
    ∃ t t', exec i s = .next t ∧ exec i { s with ks := ks', db := db', tx := tx' } = .next t' ∧
      t' = { t with ks := t'.ks, db := t'.db, tx := t'.tx } ∧
      (∀ a, a < t.kslen.toNat ∨ ks'.read a = s.ks.read a → t'.ks.read a = t.ks.read a) ∧
      (∀ a, a < t.dblen.toNat ∨ db'.read a = s.db.read a → t'.db.read a = t.db.read a) ∧
      (∀ a, a < t.txlen.toNat ∨ tx'.read a = s.tx.read a → t'.tx.read a = t.tx.read a)

/-- 70_reset_and_hazards.md R181, which the spec derives: the first command after reset. -/
def Obligations.FirstCommandAfterReset : Prop :=
  (∀ i : Instr, i = .init ∨ i = .gen →
    exec i State.reset = .next { State.reset with err := .invalidConfig, errinfo := 0x02000000#32 }) ∧
  exec .step State.reset = .next { State.reset with err := .invalidConfig, errinfo := 0x06000000#32 } ∧
  (∀ i : Instr, i = .period ∨ i = .classifyExact ∨ i = .classifyTwoval →
    exec i State.reset = .next { State.reset with err := .invalidSequence, errinfo := 0#32 }) ∧
  (∀ i : Instr, i = .t2b ∨ i = .b2t ∨ i = .xor ∨ i = .enc ∨ i = .dec → exec i State.reset = .next State.reset)

/-! ## The host's port -/

/-- 10_state.md R34: a write to a configuration register stores the value, closes the run, whatever is written, changes
nothing else, and a following `STEP` fails. -/
def Obligations.ConfigurationWriteClosesTheRun : Prop :=
  ∀ (s : State) (r : Nat) (v : Word) (rest : List Access), s.pending = .writeReg r v :: rest →
    IsConfigNumber Config.params r → s.tap.length = Config.params.tmax →
    ∃ t, step s = .next t ∧ t.run = false ∧
      (∀ x, regOfNumber Config.params r = some x → readReg t x = v) ∧
      (∀ x, regOfNumber Config.params r ≠ some x → x ≠ .status → readReg t x = readReg s x) ∧
      t = { s with
        pending := rest
        run := false
        conv := t.conv
        degree := t.degree
        ntap := t.ntap
        seed := t.seed
        tap := t.tap } ∧
      exec .step t = .next { t with err := .invalidConfig, errinfo := 0x06000000#32 }

/-- 10_state.md R21: a write to a read-only register is ignored; `LEN` and the length registers store all 32 bits and
close no run. -/
def Obligations.OtherRegisterWrites : Prop :=
  ∀ (s : State) (r : Nat) (v : Word) (rest : List Access), s.pending = .writeReg r v :: rest →
    (r ∈ [1, 2, 7, 12, 13, 14] → step s = .next { s with pending := rest }) ∧
    (r = 8 → step s = .next { s with pending := rest, len := v }) ∧
    (r = 9 → step s = .next { s with pending := rest, kslen := v }) ∧
    (r = 10 → step s = .next { s with pending := rest, dblen := v }) ∧
    (r = 11 → step s = .next { s with pending := rest, txlen := v })

/-- 10_state.md R21, R23, 20_memory.md R59: a register read answers the register's value and changes nothing of the
block. The numbers in `STATUS.ERR` are those of 60_exceptions.md R151, those in `CLASS` of 41_period_classifier.md R122. -/
def Obligations.RegisterReads : Prop :=
  ∀ (s : State) (r : Nat) (rest : List Access), s.pending = .readReg r :: rest →
    s.tap.length = Config.params.tmax → r ≠ 15 → r < 16 + Config.params.tmax →
    ∃ v, step s = .next { s with pending := rest, answers := s.answers ++ [v] } ∧
      (r = 0 → v = 0#32) ∧
      (r = 1 → ∃ code, v.toNat = code + 16 * s.run.toNat + 32 * s.out.toNat ∧
        (s.err = .ok → code = 0) ∧ (s.err = .invalidConfig → code = 1) ∧ (s.err = .invalidSequence → code = 2) ∧
        (s.err = .lengthMismatch → code = 3) ∧ (s.err = .malformedBits → code = 4) ∧
        (s.err = .encodingError → code = 5) ∧ (s.err = .illegalCommand → code = 6) ∧
        (s.err = .capacityExceeded → code = 7)) ∧
      (r = 2 → v = s.errinfo) ∧ (r = 3 → v = s.conv) ∧ (r = 4 → v = s.degree) ∧ (r = 5 → v = s.ntap) ∧
      (r = 6 → v = s.seed) ∧ (r = 7 → v = s.lfsr) ∧ (r = 8 → v = s.len) ∧ (r = 9 → v = s.kslen) ∧
      (r = 10 → v = s.dblen) ∧ (r = 11 → v = s.txlen) ∧ (r = 12 → v = s.period) ∧ (r = 13 → v = s.maxper) ∧
      (r = 14 → (s.cls = .none → v = 0#32) ∧ (s.cls = .primitive → v = 1#32) ∧
        (s.cls = .irreducibleNonPrimitive → v = 2#32) ∧ (s.cls = .reducible → v = 3#32)) ∧
      (16 ≤ r → s.tap[r - 16]? = some v)

/-- 20_memory.md R42, R59: a cell written reads as written, every other cell and everything else of the block is
unchanged, whatever the length register says; a cell read changes nothing of the block. -/
def Obligations.CellAccesses : Prop :=
  ∀ (s : State) (rest : List Access) (a : Nat),
    (∀ v, a < Config.params.lmax → s.pending = .writeKs a v :: rest →
      ∃ t, step s = .next t ∧ t.ks.read a = v ∧ (∀ b, b ≠ a → t.ks.read b = s.ks.read b) ∧
        t = { s with pending := rest, ks := t.ks }) ∧
    (∀ v, a < Config.params.lmax → s.pending = .writeDb a v :: rest →
      ∃ t, step s = .next t ∧ t.db.read a = v ∧ (∀ b, b ≠ a → t.db.read b = s.db.read b) ∧
        t = { s with pending := rest, db := t.db }) ∧
    (∀ v, a < Config.params.cmax → s.pending = .writeTx a v :: rest →
      ∃ t, step s = .next t ∧ t.tx.read a = v ∧ (∀ b, b ≠ a → t.tx.read b = s.tx.read b) ∧
        t = { s with pending := rest, tx := t.tx }) ∧
    (a < Config.params.lmax → s.pending = .readKs a :: rest →
      ∃ v, v.toNat = (s.ks.read a).toNat ∧
        step s = .next { s with pending := rest, answers := s.answers ++ [v] }) ∧
    (a < Config.params.lmax → s.pending = .readDb a :: rest →
      ∃ v, v.toNat = (s.db.read a).toNat ∧
        step s = .next { s with pending := rest, answers := s.answers ++ [v] }) ∧
    (a < Config.params.cmax → s.pending = .readTx a :: rest →
      step s = .next { s with pending := rest, answers := s.answers ++ [s.tx.read a] })

/-- An access is refused exactly when it names a register or a cell that does not exist (10_state.md R35, 20_memory.md
R43), and nothing else ever stops the machine (log entry 4, DEDUCED from 60_exceptions.md R162). -/
def Obligations.OnlyMissingPlacesAreRefused : Prop :=
  ∀ (s : State) (a : Access) (rest : List Access), s.pending = a :: rest →
    (a.missing Config.params → ∃ r, step s = .refused r) ∧
    (¬ a.missing Config.params → ∃ t, step s = .next t)

/-- Reset puts the whole block at the values of 10_state.md R39, from any state (70_reset_and_hazards.md R180); that it
keeps the host's side, `pending` and `answers`, is the model's choice (log entry 11, DESIGN CHOICE). -/
def Obligations.ResetClearsTheBlock : Prop :=
  ∀ (s : State) (rest : List Access), s.pending = .reset :: rest →
    ∃ t, step s = .next t ∧ t = { State.reset with pending := rest, answers := s.answers } ∧
      (∀ x : Reg, readReg t x = 0#32) ∧
      (∀ a, t.ks.read a = 0#1 ∧ t.db.read a = 0#1 ∧ t.tx.read a = 0#32)

/-- 10_state.md R23: a run is opened only by a successful `INIT` or `GEN` and closed only by a configuration write or
by reset. -/
def Obligations.WhoOpensAndClosesARun : Prop :=
  ∀ s t : State, step s = .next t →
    (s.run = false → t.run = true →
      ∃ w rest, s.pending = .writeReg 0 w :: rest ∧ (decode w = .ok .init ∨ decode w = .ok .gen) ∧
        t.err = .ok ∧ ConfigValid Config.params s) ∧
    (s.run = true → t.run = false →
      ∃ rest, s.pending = .reset :: rest ∨
        ∃ r v, s.pending = .writeReg r v :: rest ∧ IsConfigNumber Config.params r)

/-- 30_encoding.md R85 `TAPS`: the accesses it expands to load the list in order and its length, and nothing else. -/
def Obligations.TapsLineLoadsTheList : Prop :=
  ∀ (s : State) (ts : List Word), s.pending = lineTaps ts → ts.length ≤ Config.params.tmax →
    s.tap.length = Config.params.tmax →
    ∃ t, Sys2Proof.core.run (lineTaps ts).length s = .next t ∧
      t = { s with pending := [], run := false, ntap := t.ntap, tap := t.tap } ∧
      t.ntap.toNat = ts.length ∧ t.tap = ts ++ s.tap.drop ts.length

/-- 30_encoding.md R85 `TEXT`: the accesses it expands to load the text and its length, and nothing else. -/
def Obligations.TextLineLoadsTheText : Prop :=
  ∀ (s : State) (cs : List Word), s.pending = lineText cs → cs.length ≤ Config.params.cmax →
    ∃ t, Sys2Proof.core.run (lineText cs).length s = .next t ∧
      t = { s with pending := [], txlen := t.txlen, tx := t.tx } ∧
      t.txlen.toNat = cs.length ∧ txSeq t = cs ∧
      (∀ a, cs.length ≤ a → t.tx.read a = s.tx.read a)

/-! ## The invariant -/

/-- The invariant holds right after reset, at the reference sizes and at any. -/
def Obligations.InvariantAtReset : Prop :=
  Inv Config.params State.reset ∧ ∀ p : Params, Inv p (State.resetAt p)

/-- Every step keeps the invariant, from every state that has it, at the reference sizes and at all sizes 00_scope.md R7
allows. -/
def Obligations.StepKeepsTheInvariant : Prop :=
  (∀ s t : State, Inv Config.params s → step s = .next t → Inv Config.params t) ∧
  (∀ (p : Params) (s t : State), p.Valid → Inv p s → stepAt p s = .next t → Inv p t)

/-- Every command keeps the invariant, for all sizes 00_scope.md R7 allows. -/
def Obligations.CommandsKeepTheInvariantForAllSizes : Prop :=
  ∀ (p : Params) (i : Instr) (s : State), p.Valid → Inv p s → Inv p (commandAt p i s)

/-! ## The sizes -/

/-- 00_scope.md R7, log entry 1: `step`, `exec` and `State.reset` are the machine at the reference sizes. -/
def Obligations.StepIsTheStepAtTheReferenceSizes : Prop :=
  (∀ s : State, step s = stepAt Config.params s) ∧
  (∀ (i : Instr) (s : State), exec i s = execAt Config.params i s) ∧
  State.reset = State.resetAt Config.params

/-- 00_scope.md R7: the machine at any sizes. An access to what does not exist at these sizes is refused (10_state.md
R35, 20_memory.md R43) and nothing else stops it (log entry 4, DEDUCED from 60_exceptions.md R162); a word written to
`CMD` runs its command at these sizes, or is illegal (10_state.md R22, 60_exceptions.md R166); reset puts the block at
its reset values (70_reset_and_hazards.md R180), and that it keeps the host's side, `pending` and `answers`, is the
model's choice (log entry 11, DESIGN CHOICE). -/
def Obligations.StepAtAllSizes : Prop :=
  ∀ (p : Params) (s : State) (a : Access) (rest : List Access), s.pending = a :: rest →
    (a.missing p → ∃ r, stepAt p s = .refused r) ∧
    (¬ a.missing p → ∃ t, stepAt p s = .next t) ∧
    (∀ (w : Word) (i : Instr), a = .writeReg 0 w → decode w = .ok i →
      stepAt p s = execAt p i { s with pending := rest }) ∧
    (∀ w : Word, a = .writeReg 0 w → (∀ i, decode w ≠ .ok i) →
      stepAt p s = .next { s with pending := rest, err := .illegalCommand, errinfo := w }) ∧
    (a = .reset → stepAt p s = .next { State.resetAt p with pending := rest, answers := s.answers })

/-- 00_scope.md R7: with buffers no 32-bit length exceeds, `CapacityExceeded` never fires. -/
def Obligations.NoCapacityErrorWhenUnbounded : Prop :=
  ∀ (p : Params) (i : Instr) (s : State), 2 ^ 32 ≤ p.lmax → 2 ^ 32 ≤ p.cmax →
    ∃ t, execAt p i s = .next t ∧ t.err ≠ .capacityExceeded
end

