-- ==== Sys2Proof/Laws/Memory.lean ====
section
/-! SUPPORT. The laws of the buffers: a read after a write, the canonical form, and that equal contents are equal
data. -/

namespace Sys2Proof.Machine

variable {w : Nat}

@[simp] theorem Memory.read_nil (a : Nat) : Memory.read ([] : Memory w) a = 0#w := rfl

theorem Memory.read_append (m n : Memory w) (a : Nat) :
    Memory.read (m ++ n) a = if (∃ c ∈ m, c.1 = a) then Memory.read m a else Memory.read n a := by
  induction m with
  | nil => simp
  | cons c m ih =>
    obtain ⟨b, v⟩ := c
    by_cases h : b = a
    · simp [Memory.read, h]
    · simp [Memory.read, h, ih]

theorem Memory.read_of_unlisted (m : Memory w) (a : Nat) (h : ∀ c ∈ m, c.1 ≠ a) : Memory.read m a = 0#w := by
  induction m with
  | nil => rfl
  | cons c m ih =>
    obtain ⟨b, v⟩ := c
    have hb : b ≠ a := h (b, v) (by simp)
    simp only [Memory.read, if_neg hb]
    exact ih (fun c hc => h c (by simp [hc]))

theorem Memory.read_of_listed (m : Memory w) (hs : m.Pairwise (fun x y => x.1 < y.1)) (c : Nat × BitVec w)
    (h : c ∈ m) : Memory.read m c.1 = c.2 := by
  induction m with
  | nil => simp at h
  | cons d m ih =>
    obtain ⟨b, v⟩ := d
    rw [List.pairwise_cons] at hs
    rcases List.mem_cons.mp h with h | h
    · subst h
      simp [Memory.read]
    · have hlt := hs.1 c h
      have hne : b ≠ c.1 := by simp at hlt; omega
      simp only [Memory.read, if_neg hne]
      exact ih hs.2 h

theorem Memory.read_filter (m : Memory w) (P : Nat → Bool) (a : Nat) :
    Memory.read (m.filter (fun c => P c.1)) a = if P a then Memory.read m a else 0#w := by
  induction m with
  | nil => simp
  | cons c m ih =>
    obtain ⟨b, v⟩ := c
    by_cases hP : P b = true
    · rw [List.filter_cons_of_pos (by simpa using hP)]
      by_cases hb : b = a
      · subst hb
        simp [Memory.read, hP]
      · simp only [Memory.read, if_neg hb, ih]
    · rw [List.filter_cons_of_neg (by simpa using hP), ih]
      by_cases hb : b = a
      · subst hb
        simp [hP]
      · simp [Memory.read, hb]

theorem Memory.listed_index (a : Nat) (vs : List (BitVec w)) :
    ∀ c ∈ Memory.listed a vs, a ≤ c.1 ∧ c.1 < a + vs.length ∧ c.2 ≠ 0#w := by
  induction vs generalizing a with
  | nil => simp [Memory.listed]
  | cons v vs ih =>
    intro c hc
    by_cases hv : v = Memory.blank w
    · rw [Memory.listed, if_pos hv] at hc
      have h := ih (a + 1) c hc
      simp only [List.length_cons]
      exact ⟨by omega, by omega, h.2.2⟩
    · rw [Memory.listed, if_neg hv] at hc
      rcases List.mem_cons.mp hc with h | h
      · subst h
        exact ⟨by simp, by simp, hv⟩
      · have h := ih (a + 1) c h
        simp only [List.length_cons]
        exact ⟨by omega, by omega, h.2.2⟩

theorem Memory.read_listed (a : Nat) (vs : List (BitVec w)) (x : Nat) :
    Memory.read (Memory.listed a vs) x = if a ≤ x then vs.getD (x - a) 0#w else 0#w := by
  induction vs generalizing a with
  | nil => simp [Memory.listed]
  | cons v vs ih =>
    by_cases hx : x = a
    · subst hx
      by_cases hv : v = Memory.blank w
      · rw [Memory.listed, if_pos hv, Memory.read_of_unlisted]
        · simpa [Memory.blank] using hv.symm
        · intro c hc
          have := (Memory.listed_index _ _ c hc).1
          omega
      · rw [Memory.listed, if_neg hv]
        simp [Memory.read]
    · have hrest : Memory.read (Memory.listed a (v :: vs)) x = Memory.read (Memory.listed (a + 1) vs) x := by
        by_cases hv : v = Memory.blank w
        · rw [Memory.listed, if_pos hv]
        · rw [Memory.listed, if_neg hv, Memory.read, if_neg (fun h => hx h.symm)]
      rw [hrest, ih]
      by_cases hle : a ≤ x
      · have h1 : a + 1 ≤ x := by omega
        obtain ⟨k, hk⟩ : ∃ k, x - a = k + 1 := ⟨x - a - 1, by omega⟩
        have hk' : x - (a + 1) = k := by omega
        simp [hle, h1, hk, hk']
      · have h1 : ¬ a + 1 ≤ x := by omega
        simp [hle, h1]

theorem Memory.listed_pairwise (a : Nat) (vs : List (BitVec w)) :
    (Memory.listed a vs).Pairwise (fun x y => x.1 < y.1) := by
  induction vs generalizing a with
  | nil => simp [Memory.listed]
  | cons v vs ih =>
    by_cases hv : v = Memory.blank w
    · rw [Memory.listed, if_pos hv]
      exact ih (a + 1)
    · rw [Memory.listed, if_neg hv, List.pairwise_cons]
      refine ⟨fun c hc => ?_, ih (a + 1)⟩
      have := (Memory.listed_index _ _ c hc).1
      simp
      omega

/-- A read after a write: the written cells hold the written values, every other cell what it held. -/
theorem Memory.read_write (m : Memory w) (a : Nat) (vs : List (BitVec w)) (x : Nat) :
    (m.write a vs).read x =
      if a ≤ x ∧ x < a + vs.length then vs.getD (x - a) 0#w else m.read x := by
  have hlow := Memory.read_filter m (fun i => decide (i < a)) x
  have hhigh := Memory.read_filter m (fun i => decide (a + vs.length ≤ i)) x
  have hmid := Memory.read_listed a vs x
  unfold Memory.write
  rw [List.append_assoc, Memory.read_append, Memory.read_append]
  rcases Nat.lt_trichotomy x a with hx | hx | hx
  · have h2 : ¬ (∃ c ∈ Memory.listed a vs, c.1 = x) := by
      rintro ⟨c, hc, rfl⟩
      have := (Memory.listed_index _ _ c hc).1
      omega
    have h3 : ¬ (a ≤ x ∧ x < a + vs.length) := by omega
    simp only [h2, h3, if_false]
    split
    · simpa [hx] using hlow
    · rename_i h1
      have hx' : ¬ (a + vs.length ≤ x) := by omega
      have : m.read x = 0#w := by
        have h0 : Memory.read (m.filter (fun c => decide (c.1 < a))) x = 0#w :=
          Memory.read_of_unlisted _ _ (fun c hc hcx => h1 ⟨c, hc, hcx⟩)
        have hl : Memory.read (m.filter (fun c => decide (c.1 < a))) x = m.read x := by simpa [hx] using hlow
        rw [← hl, h0]
      rw [this]
      simpa [hx'] using hhigh
  all_goals
    have h1 : ¬ (∃ c ∈ m.filter (fun c => decide (c.1 < a)), c.1 = x) := by
      rintro ⟨c, hc, rfl⟩
      have := (List.mem_filter.mp hc).2
      simp at this
      omega
    simp only [h1, if_false]
    by_cases hin : x < a + vs.length
    · have hax : a ≤ x := by omega
      have h3 : a ≤ x ∧ x < a + vs.length := ⟨hax, hin⟩
      simp only [h3, and_self, if_true]
      split
      · simpa [hax] using hmid
      · rename_i h2
        have h0 : Memory.read (Memory.listed a vs) x = 0#w :=
          Memory.read_of_unlisted _ _ (fun c hc hcx => h2 ⟨c, hc, hcx⟩)
        have hx' : ¬ (a + vs.length ≤ x) := by omega
        have hh : Memory.read (m.filter (fun c => decide (a + vs.length ≤ c.1))) x = 0#w := by
          simpa [hx'] using hhigh
        rw [hh]
        simpa [hax, h0] using hmid
    · have h2 : ¬ (∃ c ∈ Memory.listed a vs, c.1 = x) := by
        rintro ⟨c, hc, rfl⟩
        have := (Memory.listed_index _ _ c hc).2.1
        omega
      have h3 : ¬ (a ≤ x ∧ x < a + vs.length) := by omega
      simp only [h2, h3, if_false]
      have hx' : a + vs.length ≤ x := by omega
      simpa [hx'] using hhigh

/-- A write keeps the canonical form. -/
theorem Memory.write_wf (m : Memory w) (a : Nat) (vs : List (BitVec w)) (h : m.wf) : (m.write a vs).wf := by
  unfold Memory.write
  refine ⟨?_, ?_⟩
  · rw [List.append_assoc, List.pairwise_append, List.pairwise_append]
    refine ⟨h.1.filter _, ⟨Memory.listed_pairwise a vs, h.1.filter _, ?_⟩, ?_⟩
    · intro c hc d hd
      have h1 := (Memory.listed_index _ _ c hc).2.1
      have h2 := (List.mem_filter.mp hd).2
      simp at h2
      omega
    · intro c hc d hd
      have h1 := (List.mem_filter.mp hc).2
      simp at h1
      rcases List.mem_append.mp hd with hd | hd
      · have := (Memory.listed_index _ _ d hd).1
        omega
      · have h2 := (List.mem_filter.mp hd).2
        simp at h2
        omega
  · intro c hc
    rw [List.append_assoc, List.mem_append, List.mem_append] at hc
    rcases hc with hc | hc | hc
    · exact h.2 c (List.mem_filter.mp hc).1
    · exact (Memory.listed_index _ _ c hc).2.2
    · exact h.2 c (List.mem_filter.mp hc).1

/-- A write below the capacity lists no cell at or beyond it. -/
theorem Memory.write_within (m : Memory w) (a : Nat) (vs : List (BitVec w)) (cap : Nat) (h : m.within cap)
    (hcap : a + vs.length ≤ cap) : (m.write a vs).within cap := by
  intro c hc
  unfold Memory.write at hc
  rw [List.append_assoc, List.mem_append, List.mem_append] at hc
  rcases hc with hc | hc | hc
  · exact h c (List.mem_filter.mp hc).1
  · have := (Memory.listed_index _ _ c hc).2.1
    omega
  · exact h c (List.mem_filter.mp hc).1

/-- Buffers in canonical form with equal contents are equal data. -/
theorem Memory.ext_of_wf (m n : Memory w) (hm : m.wf) (hn : n.wf) (h : ∀ a, m.read a = n.read a) : m = n := by
  have key : ∀ (m n : Memory w), m.wf → n.wf → (∀ a, m.read a = n.read a) → ∀ c ∈ m, c ∈ n := by
    intro m n hm hn h c hc
    have h1 := Memory.read_of_listed m hm.1 c hc
    rw [h c.1] at h1
    by_contra hcn
    have h0 : Memory.read n c.1 = 0#w ∨ ∃ d ∈ n, d.1 = c.1 := by
      by_cases hd : ∃ d ∈ n, d.1 = c.1
      · exact .inr hd
      · exact .inl (Memory.read_of_unlisted _ _ (fun d hdn hdc => hd ⟨d, hdn, hdc⟩))
    rcases h0 with h0 | ⟨d, hd, hdc⟩
    · exact hm.2 c hc (h1.symm.trans h0)
    · have h2 := Memory.read_of_listed n hn.1 d hd
      rw [hdc, h1] at h2
      have : d = c := Prod.ext hdc h2.symm
      exact hcn (this ▸ hd)
  have hsort : ∀ (m : Memory w), m.wf → m.Nodup := by
    intro m hm
    exact hm.1.imp (fun {x y} hlt heq => by rw [heq] at hlt; exact Nat.lt_irrefl _ hlt)
  have hperm : m.Perm n :=
    (List.perm_ext_iff_of_nodup (hsort m hm) (hsort n hn)).2
      (fun c => ⟨key m n hm hn h c, key n m hn hm (fun a => (h a).symm) c⟩)
  exact hperm.eq_of_pairwise
    (fun x y _ _ (hxy : x.1 < y.1) (hyx : y.1 < x.1) => absurd hxy (Nat.lt_asymm hyx)) hm.1 hn.1

@[simp] theorem Memory.readSeq_length (m : Memory w) (a n : Nat) : (m.readSeq a n).length = n := by
  simp [Memory.readSeq]

theorem Memory.readSeq_getElem? (m : Memory w) (a n i : Nat) :
    (m.readSeq a n)[i]? = if i < n then some (m.read (a + i)) else none := by
  by_cases h : i < n <;> simp [Memory.readSeq, h]

/-- Reading back the cells just written gives the values written. -/
theorem Memory.readSeq_write (m : Memory w) (a : Nat) (vs : List (BitVec w)) :
    (m.write a vs).readSeq a vs.length = vs := by
  apply List.ext_getElem?
  intro i
  rw [Memory.readSeq_getElem?]
  by_cases h : i < vs.length
  · simp [h, Memory.read_write]
  · simp [h]

end Sys2Proof.Machine
end

