-- ==== Sys2Proof/Laws/State.lean ====
section
/-! SUPPORT. What each named update of State does to each field, by definition. -/

namespace Sys2Proof.Machine

section
variable (s : State) (f : Failure) (b : Bit) (v : Word) (p : Params)

@[simp] theorem raise_err : (raise f s).err = f.code := rfl
@[simp] theorem raise_run : (raise f s).run = s.run := rfl
@[simp] theorem raise_out : (raise f s).out = s.out := rfl
@[simp] theorem raise_errinfo : (raise f s).errinfo = f.info := rfl
@[simp] theorem raise_conv : (raise f s).conv = s.conv := rfl
@[simp] theorem raise_degree : (raise f s).degree = s.degree := rfl
@[simp] theorem raise_ntap : (raise f s).ntap = s.ntap := rfl
@[simp] theorem raise_seed : (raise f s).seed = s.seed := rfl
@[simp] theorem raise_lfsr : (raise f s).lfsr = s.lfsr := rfl
@[simp] theorem raise_len : (raise f s).len = s.len := rfl
@[simp] theorem raise_kslen : (raise f s).kslen = s.kslen := rfl
@[simp] theorem raise_dblen : (raise f s).dblen = s.dblen := rfl
@[simp] theorem raise_txlen : (raise f s).txlen = s.txlen := rfl
@[simp] theorem raise_period : (raise f s).period = s.period := rfl
@[simp] theorem raise_maxper : (raise f s).maxper = s.maxper := rfl
@[simp] theorem raise_cls : (raise f s).cls = s.cls := rfl
@[simp] theorem raise_tap : (raise f s).tap = s.tap := rfl
@[simp] theorem raise_ks : (raise f s).ks = s.ks := rfl
@[simp] theorem raise_db : (raise f s).db = s.db := rfl
@[simp] theorem raise_tx : (raise f s).tx = s.tx := rfl
@[simp] theorem raise_pending : (raise f s).pending = s.pending := rfl
@[simp] theorem raise_answers : (raise f s).answers = s.answers := rfl

@[simp] theorem done_err : (done s).err = .ok := rfl
@[simp] theorem done_run : (done s).run = s.run := rfl
@[simp] theorem done_out : (done s).out = s.out := rfl
@[simp] theorem done_errinfo : (done s).errinfo = 0#32 := rfl
@[simp] theorem done_conv : (done s).conv = s.conv := rfl
@[simp] theorem done_degree : (done s).degree = s.degree := rfl
@[simp] theorem done_ntap : (done s).ntap = s.ntap := rfl
@[simp] theorem done_seed : (done s).seed = s.seed := rfl
@[simp] theorem done_lfsr : (done s).lfsr = s.lfsr := rfl
@[simp] theorem done_len : (done s).len = s.len := rfl
@[simp] theorem done_kslen : (done s).kslen = s.kslen := rfl
@[simp] theorem done_dblen : (done s).dblen = s.dblen := rfl
@[simp] theorem done_txlen : (done s).txlen = s.txlen := rfl
@[simp] theorem done_period : (done s).period = s.period := rfl
@[simp] theorem done_maxper : (done s).maxper = s.maxper := rfl
@[simp] theorem done_cls : (done s).cls = s.cls := rfl
@[simp] theorem done_tap : (done s).tap = s.tap := rfl
@[simp] theorem done_ks : (done s).ks = s.ks := rfl
@[simp] theorem done_db : (done s).db = s.db := rfl
@[simp] theorem done_tx : (done s).tx = s.tx := rfl
@[simp] theorem done_pending : (done s).pending = s.pending := rfl
@[simp] theorem done_answers : (done s).answers = s.answers := rfl

@[simp] theorem openRun_err : (openRun s).err = s.err := rfl
@[simp] theorem openRun_run : (openRun s).run = true := rfl
@[simp] theorem openRun_out : (openRun s).out = s.out := rfl
@[simp] theorem openRun_errinfo : (openRun s).errinfo = s.errinfo := rfl
@[simp] theorem openRun_conv : (openRun s).conv = s.conv := rfl
@[simp] theorem openRun_degree : (openRun s).degree = s.degree := rfl
@[simp] theorem openRun_ntap : (openRun s).ntap = s.ntap := rfl
@[simp] theorem openRun_seed : (openRun s).seed = s.seed := rfl
@[simp] theorem openRun_lfsr : (openRun s).lfsr = s.lfsr := rfl
@[simp] theorem openRun_len : (openRun s).len = s.len := rfl
@[simp] theorem openRun_kslen : (openRun s).kslen = s.kslen := rfl
@[simp] theorem openRun_dblen : (openRun s).dblen = s.dblen := rfl
@[simp] theorem openRun_txlen : (openRun s).txlen = s.txlen := rfl
@[simp] theorem openRun_period : (openRun s).period = s.period := rfl
@[simp] theorem openRun_maxper : (openRun s).maxper = s.maxper := rfl
@[simp] theorem openRun_cls : (openRun s).cls = s.cls := rfl
@[simp] theorem openRun_tap : (openRun s).tap = s.tap := rfl
@[simp] theorem openRun_ks : (openRun s).ks = s.ks := rfl
@[simp] theorem openRun_db : (openRun s).db = s.db := rfl
@[simp] theorem openRun_tx : (openRun s).tx = s.tx := rfl
@[simp] theorem openRun_pending : (openRun s).pending = s.pending := rfl
@[simp] theorem openRun_answers : (openRun s).answers = s.answers := rfl

@[simp] theorem closeRun_err : (closeRun s).err = s.err := rfl
@[simp] theorem closeRun_run : (closeRun s).run = false := rfl
@[simp] theorem closeRun_out : (closeRun s).out = s.out := rfl
@[simp] theorem closeRun_errinfo : (closeRun s).errinfo = s.errinfo := rfl
@[simp] theorem closeRun_conv : (closeRun s).conv = s.conv := rfl
@[simp] theorem closeRun_degree : (closeRun s).degree = s.degree := rfl
@[simp] theorem closeRun_ntap : (closeRun s).ntap = s.ntap := rfl
@[simp] theorem closeRun_seed : (closeRun s).seed = s.seed := rfl
@[simp] theorem closeRun_lfsr : (closeRun s).lfsr = s.lfsr := rfl
@[simp] theorem closeRun_len : (closeRun s).len = s.len := rfl
@[simp] theorem closeRun_kslen : (closeRun s).kslen = s.kslen := rfl
@[simp] theorem closeRun_dblen : (closeRun s).dblen = s.dblen := rfl
@[simp] theorem closeRun_txlen : (closeRun s).txlen = s.txlen := rfl
@[simp] theorem closeRun_period : (closeRun s).period = s.period := rfl
@[simp] theorem closeRun_maxper : (closeRun s).maxper = s.maxper := rfl
@[simp] theorem closeRun_cls : (closeRun s).cls = s.cls := rfl
@[simp] theorem closeRun_tap : (closeRun s).tap = s.tap := rfl
@[simp] theorem closeRun_ks : (closeRun s).ks = s.ks := rfl
@[simp] theorem closeRun_db : (closeRun s).db = s.db := rfl
@[simp] theorem closeRun_tx : (closeRun s).tx = s.tx := rfl
@[simp] theorem closeRun_pending : (closeRun s).pending = s.pending := rfl
@[simp] theorem closeRun_answers : (closeRun s).answers = s.answers := rfl

@[simp] theorem setOut_err : (setOut b s).err = s.err := rfl
@[simp] theorem setOut_run : (setOut b s).run = s.run := rfl
@[simp] theorem setOut_out : (setOut b s).out = b := rfl
@[simp] theorem setOut_errinfo : (setOut b s).errinfo = s.errinfo := rfl
@[simp] theorem setOut_conv : (setOut b s).conv = s.conv := rfl
@[simp] theorem setOut_degree : (setOut b s).degree = s.degree := rfl
@[simp] theorem setOut_ntap : (setOut b s).ntap = s.ntap := rfl
@[simp] theorem setOut_seed : (setOut b s).seed = s.seed := rfl
@[simp] theorem setOut_lfsr : (setOut b s).lfsr = s.lfsr := rfl
@[simp] theorem setOut_len : (setOut b s).len = s.len := rfl
@[simp] theorem setOut_kslen : (setOut b s).kslen = s.kslen := rfl
@[simp] theorem setOut_dblen : (setOut b s).dblen = s.dblen := rfl
@[simp] theorem setOut_txlen : (setOut b s).txlen = s.txlen := rfl
@[simp] theorem setOut_period : (setOut b s).period = s.period := rfl
@[simp] theorem setOut_maxper : (setOut b s).maxper = s.maxper := rfl
@[simp] theorem setOut_cls : (setOut b s).cls = s.cls := rfl
@[simp] theorem setOut_tap : (setOut b s).tap = s.tap := rfl
@[simp] theorem setOut_ks : (setOut b s).ks = s.ks := rfl
@[simp] theorem setOut_db : (setOut b s).db = s.db := rfl
@[simp] theorem setOut_tx : (setOut b s).tx = s.tx := rfl
@[simp] theorem setOut_pending : (setOut b s).pending = s.pending := rfl
@[simp] theorem setOut_answers : (setOut b s).answers = s.answers := rfl

@[simp] theorem answer_err : (answer v s).err = s.err := rfl
@[simp] theorem answer_run : (answer v s).run = s.run := rfl
@[simp] theorem answer_out : (answer v s).out = s.out := rfl
@[simp] theorem answer_errinfo : (answer v s).errinfo = s.errinfo := rfl
@[simp] theorem answer_conv : (answer v s).conv = s.conv := rfl
@[simp] theorem answer_degree : (answer v s).degree = s.degree := rfl
@[simp] theorem answer_ntap : (answer v s).ntap = s.ntap := rfl
@[simp] theorem answer_seed : (answer v s).seed = s.seed := rfl
@[simp] theorem answer_lfsr : (answer v s).lfsr = s.lfsr := rfl
@[simp] theorem answer_len : (answer v s).len = s.len := rfl
@[simp] theorem answer_kslen : (answer v s).kslen = s.kslen := rfl
@[simp] theorem answer_dblen : (answer v s).dblen = s.dblen := rfl
@[simp] theorem answer_txlen : (answer v s).txlen = s.txlen := rfl
@[simp] theorem answer_period : (answer v s).period = s.period := rfl
@[simp] theorem answer_maxper : (answer v s).maxper = s.maxper := rfl
@[simp] theorem answer_cls : (answer v s).cls = s.cls := rfl
@[simp] theorem answer_tap : (answer v s).tap = s.tap := rfl
@[simp] theorem answer_ks : (answer v s).ks = s.ks := rfl
@[simp] theorem answer_db : (answer v s).db = s.db := rfl
@[simp] theorem answer_tx : (answer v s).tx = s.tx := rfl
@[simp] theorem answer_pending : (answer v s).pending = s.pending := rfl
@[simp] theorem answer_answers : (answer v s).answers = s.answers ++ [v] := rfl

@[simp] theorem resetBlock_err : (resetBlock p s).err = .ok := rfl
@[simp] theorem resetBlock_run : (resetBlock p s).run = false := rfl
@[simp] theorem resetBlock_out : (resetBlock p s).out = 0#1 := rfl
@[simp] theorem resetBlock_errinfo : (resetBlock p s).errinfo = 0#32 := rfl
@[simp] theorem resetBlock_conv : (resetBlock p s).conv = 0#32 := rfl
@[simp] theorem resetBlock_degree : (resetBlock p s).degree = 0#32 := rfl
@[simp] theorem resetBlock_ntap : (resetBlock p s).ntap = 0#32 := rfl
@[simp] theorem resetBlock_seed : (resetBlock p s).seed = 0#32 := rfl
@[simp] theorem resetBlock_lfsr : (resetBlock p s).lfsr = 0#32 := rfl
@[simp] theorem resetBlock_len : (resetBlock p s).len = 0#32 := rfl
@[simp] theorem resetBlock_kslen : (resetBlock p s).kslen = 0#32 := rfl
@[simp] theorem resetBlock_dblen : (resetBlock p s).dblen = 0#32 := rfl
@[simp] theorem resetBlock_txlen : (resetBlock p s).txlen = 0#32 := rfl
@[simp] theorem resetBlock_period : (resetBlock p s).period = 0#32 := rfl
@[simp] theorem resetBlock_maxper : (resetBlock p s).maxper = 0#32 := rfl
@[simp] theorem resetBlock_cls : (resetBlock p s).cls = .none := rfl
@[simp] theorem resetBlock_tap : (resetBlock p s).tap = List.replicate p.tmax 0#32 := rfl
@[simp] theorem resetBlock_ks : (resetBlock p s).ks = [] := rfl
@[simp] theorem resetBlock_db : (resetBlock p s).db = [] := rfl
@[simp] theorem resetBlock_tx : (resetBlock p s).tx = [] := rfl
@[simp] theorem resetBlock_pending : (resetBlock p s).pending = s.pending := rfl
@[simp] theorem resetBlock_answers : (resetBlock p s).answers = s.answers := rfl

variable (nbits w : Nat)

@[simp] theorem withFetchWord_err : (s.withFetchWord nbits w).err = s.err := rfl
@[simp] theorem withFetchWord_run : (s.withFetchWord nbits w).run = s.run := rfl
@[simp] theorem withFetchWord_out : (s.withFetchWord nbits w).out = s.out := rfl
@[simp] theorem withFetchWord_errinfo : (s.withFetchWord nbits w).errinfo = s.errinfo := rfl
@[simp] theorem withFetchWord_conv : (s.withFetchWord nbits w).conv = s.conv := rfl
@[simp] theorem withFetchWord_degree : (s.withFetchWord nbits w).degree = s.degree := rfl
@[simp] theorem withFetchWord_ntap : (s.withFetchWord nbits w).ntap = s.ntap := rfl
@[simp] theorem withFetchWord_seed : (s.withFetchWord nbits w).seed = s.seed := rfl
@[simp] theorem withFetchWord_lfsr : (s.withFetchWord nbits w).lfsr = s.lfsr := rfl
@[simp] theorem withFetchWord_len : (s.withFetchWord nbits w).len = s.len := rfl
@[simp] theorem withFetchWord_kslen : (s.withFetchWord nbits w).kslen = s.kslen := rfl
@[simp] theorem withFetchWord_dblen : (s.withFetchWord nbits w).dblen = s.dblen := rfl
@[simp] theorem withFetchWord_txlen : (s.withFetchWord nbits w).txlen = s.txlen := rfl
@[simp] theorem withFetchWord_period : (s.withFetchWord nbits w).period = s.period := rfl
@[simp] theorem withFetchWord_maxper : (s.withFetchWord nbits w).maxper = s.maxper := rfl
@[simp] theorem withFetchWord_cls : (s.withFetchWord nbits w).cls = s.cls := rfl
@[simp] theorem withFetchWord_tap : (s.withFetchWord nbits w).tap = s.tap := rfl
@[simp] theorem withFetchWord_ks : (s.withFetchWord nbits w).ks = s.ks := rfl
@[simp] theorem withFetchWord_db : (s.withFetchWord nbits w).db = s.db := rfl
@[simp] theorem withFetchWord_tx : (s.withFetchWord nbits w).tx = s.tx := rfl
@[simp] theorem withFetchWord_pending : (s.withFetchWord nbits w).pending = commandAccess nbits w :: s.pending := rfl
@[simp] theorem withFetchWord_answers : (s.withFetchWord nbits w).answers = s.answers := rfl

end

end Sys2Proof.Machine
end

