-- ==== Sys2Proof/Laws/Commands.lean ====
section
/-! SUPPORT. What each command can do, said once: it raises one of its errors or it completes. Later proofs cite these
and do not unfold a command. -/

namespace Sys2Proof.Machine

/-- Every command answers a next state: the effect at the reference sizes. -/
theorem exec_eq_commandAt (i : Instr) (s : State) : exec i s = .next (commandAt Config.params i s) := by
  cases i <;> rfl

/-- The meanings of `exec` are those at the reference sizes. -/
theorem exec_eq_execAt : exec = execAt Config.params := by
  funext i s
  exact exec_eq_commandAt i s

theorem params_valid : Config.params.Valid := by decide

theorem validate_code (p : Params) (s : State) (f : Failure) (h : validate p s = some f) :
    f.code = .invalidConfig := by
  unfold validate at h
  repeat' split at h
  all_goals first | (cases h; rfl) | cases h

theorem cmdInit_cases (p : Params) (s : State) :
    (∃ f, validate p s = some f ∧ cmdInit p s = raise f s) ∨
    (validate p s = none ∧ cmdInit p s = done (openRun { s with lfsr := s.seed, kslen := 0#32 })) := by
  unfold cmdInit
  cases h : validate p s with
  | some f => exact .inl ⟨f, rfl, rfl⟩
  | none => exact .inr ⟨rfl, rfl⟩

theorem cmdStep_cases (p : Params) (s : State) :
    (s.run = false ∧ cmdStep p s = raise (invalidConfig 6 0) s) ∨
    (s.run = true ∧ p.lmax ≤ s.kslen.toNat ∧ cmdStep p s = raise (capacityExceeded s.kslen) s) ∨
    (s.run = true ∧ s.kslen.toNat < p.lmax ∧
      cmdStep p s = done (setOut ((configOf s).step s.lfsr).2
        { s with
          ks := s.ks.write s.kslen.toNat [((configOf s).step s.lfsr).2]
          kslen := s.kslen + 1#32
          lfsr := ((configOf s).step s.lfsr).1 })) := by
  unfold cmdStep
  by_cases hr : s.run = false
  · exact .inl ⟨hr, if_pos hr⟩
  · rw [if_neg hr]
    have hr' : s.run = true := by simpa using hr
    by_cases hk : s.kslen.toNat ≥ p.lmax
    · exact .inr (.inl ⟨hr', hk, if_pos hk⟩)
    · exact .inr (.inr ⟨hr', by omega, if_neg hk⟩)

theorem cmdGen_cases (p : Params) (s : State) :
    (∃ f, validate p s = some f ∧ cmdGen p s = raise f s) ∨
    (validate p s = none ∧ p.lmax < s.len.toNat ∧ cmdGen p s = raise (capacityExceeded s.len) s) ∨
    (validate p s = none ∧ s.len.toNat ≤ p.lmax ∧
      cmdGen p s = done (setOut (((configOf s).runFrom s.len.toNat s.seed).2.getLastD s.out) (openRun
        { s with
          ks := s.ks.write 0 ((configOf s).runFrom s.len.toNat s.seed).2
          lfsr := ((configOf s).runFrom s.len.toNat s.seed).1
          kslen := s.len }))) := by
  unfold cmdGen
  cases h : validate p s with
  | some f => exact .inl ⟨f, rfl, rfl⟩
  | none =>
    by_cases hl : s.len.toNat > p.lmax
    · exact .inr (.inl ⟨rfl, hl, if_pos hl⟩)
    · exact .inr (.inr ⟨rfl, by omega, if_neg hl⟩)

theorem cmdPeriod_cases (p : Params) (s : State) :
    (p.lmax < s.kslen.toNat ∧ cmdPeriod p s = raise (capacityExceeded s.kslen) s) ∨
    (s.kslen = 0#32 ∧ cmdPeriod p s = raise invalidSequence s) ∨
    (s.kslen ≠ 0#32 ∧ s.kslen.toNat ≤ p.lmax ∧
      cmdPeriod p s = done { s with period := BitVec.ofNat 32 (period (ksSeq s)) }) := by
  unfold cmdPeriod
  by_cases hk : s.kslen.toNat > p.lmax
  · exact .inl ⟨hk, if_pos hk⟩
  · rw [if_neg hk]
    by_cases h0 : s.kslen = 0#32
    · exact .inr (.inl ⟨h0, if_pos h0⟩)
    · exact .inr (.inr ⟨h0, by omega, if_neg h0⟩)

theorem cmdClassify_cases (st : Strategy) (p : Params) (s : State) :
    (p.lmax < s.kslen.toNat ∧ cmdClassify st p s = raise (capacityExceeded s.kslen) s) ∨
    (s.kslen = 0#32 ∧ cmdClassify st p s = raise invalidSequence s) ∨
    (s.kslen ≠ 0#32 ∧ s.kslen.toNat ≤ p.lmax ∧ (s.degree.toNat < 1 ∨ s.degree.toNat > p.nmax) ∧
      cmdClassify st p s = raise (invalidConfig 2 0) s) ∨
    (s.kslen ≠ 0#32 ∧ s.kslen.toNat ≤ p.lmax ∧ 1 ≤ s.degree.toNat ∧ s.degree.toNat ≤ p.nmax ∧
      cmdClassify st p s = done { s with
        period := BitVec.ofNat 32 (period (ksSeq s))
        maxper := BitVec.ofNat 32 (maxPeriod s.degree.toNat)
        cls := classify st (ksSeq s) s.degree.toNat }) := by
  unfold cmdClassify
  by_cases hk : s.kslen.toNat > p.lmax
  · exact .inl ⟨hk, if_pos hk⟩
  · by_cases h0 : s.kslen = 0#32
    · exact .inr (.inl ⟨h0, by simp [h0]⟩)
    · by_cases hd : s.degree.toNat < 1 ∨ s.degree.toNat > p.nmax
      · exact .inr (.inr (.inl ⟨h0, by omega, hd, by simp only [if_neg hk, if_neg h0, if_pos hd]⟩))
      · exact .inr (.inr (.inr ⟨h0, by omega, by omega, by omega, by simp only [if_neg hk, if_neg h0, if_neg hd]⟩))

theorem concludeDb_cases (r : Except Failure (List Bit)) (s : State) :
    (∃ f, r = .error f ∧ concludeDb r s = raise f s) ∨
    (∃ bits, r = .ok bits ∧
      concludeDb r s = done { s with db := s.db.write 0 bits, dblen := BitVec.ofNat 32 bits.length }) := by
  cases r with
  | error f => exact .inl ⟨f, rfl, rfl⟩
  | ok bits => exact .inr ⟨bits, rfl, rfl⟩

theorem concludeTx_cases (r : Except Failure (List Word)) (s : State) :
    (∃ f, r = .error f ∧ concludeTx r s = raise f s) ∨
    (∃ text, r = .ok text ∧
      concludeTx r s = done { s with tx := s.tx.write 0 text, txlen := BitVec.ofNat 32 text.length }) := by
  cases r with
  | error f => exact .inl ⟨f, rfl, rfl⟩
  | ok text => exact .inr ⟨text, rfl, rfl⟩

theorem cmdT2b_cases (p : Params) (s : State) :
    (p.cmax < s.txlen.toNat ∧ cmdT2b p s = raise (capacityExceeded s.txlen) s) ∨
    (s.txlen.toNat ≤ p.cmax ∧ cmdT2b p s = concludeDb (textToBits (txSeq s)) s) := by
  unfold cmdT2b
  by_cases hk : s.txlen.toNat > p.cmax
  · exact .inl ⟨hk, if_pos hk⟩
  · exact .inr ⟨by omega, if_neg hk⟩

theorem cmdB2t_cases (p : Params) (s : State) :
    (p.lmax < s.dblen.toNat ∧ cmdB2t p s = raise (capacityExceeded s.dblen) s) ∨
    (s.dblen.toNat ≤ p.lmax ∧ cmdB2t p s = concludeTx (bitsToText (dbSeq s)) s) := by
  unfold cmdB2t
  by_cases hk : s.dblen.toNat > p.lmax
  · exact .inl ⟨hk, if_pos hk⟩
  · exact .inr ⟨by omega, if_neg hk⟩

theorem cmdXor_cases (p : Params) (s : State) :
    (p.lmax < s.dblen.toNat ∧ cmdXor p s = raise (capacityExceeded s.dblen) s) ∨
    (s.dblen.toNat ≤ p.lmax ∧ p.lmax < s.kslen.toNat ∧ cmdXor p s = raise (capacityExceeded s.kslen) s) ∨
    (∃ f, s.dblen.toNat ≤ p.lmax ∧ s.kslen.toNat ≤ p.lmax ∧ xorTransform (dbSeq s) (ksSeq s) = .error f ∧
      cmdXor p s = raise f s) ∨
    (∃ bits, s.dblen.toNat ≤ p.lmax ∧ s.kslen.toNat ≤ p.lmax ∧ xorTransform (dbSeq s) (ksSeq s) = .ok bits ∧
      cmdXor p s = done { s with db := s.db.write 0 bits }) := by
  unfold cmdXor
  by_cases hd : s.dblen.toNat > p.lmax
  · exact .inl ⟨hd, if_pos hd⟩
  · rw [if_neg hd]
    by_cases hk : s.kslen.toNat > p.lmax
    · exact .inr (.inl ⟨by omega, hk, if_pos hk⟩)
    · rw [if_neg hk]
      cases h : xorTransform (dbSeq s) (ksSeq s) with
      | error f => exact .inr (.inr (.inl ⟨f, by omega, by omega, rfl, rfl⟩))
      | ok bits => exact .inr (.inr (.inr ⟨bits, by omega, by omega, rfl, rfl⟩))

theorem cmdEnc_cases (p : Params) (s : State) :
    (p.cmax < s.txlen.toNat ∧ cmdEnc p s = raise (capacityExceeded s.txlen) s) ∨
    (s.txlen.toNat ≤ p.cmax ∧ p.lmax < s.kslen.toNat ∧ cmdEnc p s = raise (capacityExceeded s.kslen) s) ∨
    (s.txlen.toNat ≤ p.cmax ∧ s.kslen.toNat ≤ p.lmax ∧
      cmdEnc p s = concludeDb (encrypt (txSeq s) (ksSeq s)) s) := by
  unfold cmdEnc
  by_cases hd : s.txlen.toNat > p.cmax
  · exact .inl ⟨hd, if_pos hd⟩
  · rw [if_neg hd]
    by_cases hk : s.kslen.toNat > p.lmax
    · exact .inr (.inl ⟨by omega, hk, if_pos hk⟩)
    · exact .inr (.inr ⟨by omega, by omega, if_neg hk⟩)

theorem cmdDec_cases (p : Params) (s : State) :
    (p.lmax < s.dblen.toNat ∧ cmdDec p s = raise (capacityExceeded s.dblen) s) ∨
    (s.dblen.toNat ≤ p.lmax ∧ p.lmax < s.kslen.toNat ∧ cmdDec p s = raise (capacityExceeded s.kslen) s) ∨
    (s.dblen.toNat ≤ p.lmax ∧ s.kslen.toNat ≤ p.lmax ∧
      cmdDec p s = concludeTx (decrypt (dbSeq s) (ksSeq s)) s) := by
  unfold cmdDec
  by_cases hd : s.dblen.toNat > p.lmax
  · exact .inl ⟨hd, if_pos hd⟩
  · rw [if_neg hd]
    by_cases hk : s.kslen.toNat > p.lmax
    · exact .inr (.inl ⟨by omega, hk, if_pos hk⟩)
    · exact .inr (.inr ⟨by omega, by omega, if_neg hk⟩)

/-! The pure functions: lengths, and the shapes of their results. -/

theorem runFrom_length (c : LfsrConfig) (k : Nat) (s : Word) : (c.runFrom k s).2.length = k := by
  induction k generalizing s with
  | zero => rfl
  | succ k ih => simp [LfsrConfig.runFrom, ih]

@[simp] theorem ksSeq_length (s : State) : (ksSeq s).length = s.kslen.toNat := by simp [ksSeq]

@[simp] theorem dbSeq_length (s : State) : (dbSeq s).length = s.dblen.toNat := by simp [dbSeq]

@[simp] theorem txSeq_length (s : State) : (txSeq s).length = s.txlen.toNat := by simp [txSeq]

@[simp] theorem charBits_length (c : Word) : (charBits c).length = 8 := by simp [charBits]

theorem textToBits_cases (text : List Word) :
    (∃ j, text.findIdx? (fun c => decide (c.toNat > 255)) = some j ∧
      textToBits text = .error (encodingError j)) ∨
    ((∀ c ∈ text, c.toNat ≤ 255) ∧ textToBits text = .ok (text.flatMap charBits)) := by
  unfold textToBits
  cases h : text.findIdx? (fun c => decide (c.toNat > 255)) with
  | some j => exact .inl ⟨j, rfl, rfl⟩
  | none =>
    refine .inr ⟨fun c hc => ?_, rfl⟩
    have := List.findIdx?_eq_none_iff.mp h c hc
    simpa using this

theorem flatMap_charBits_length (text : List Word) : (text.flatMap charBits).length = 8 * text.length := by
  induction text with
  | nil => rfl
  | cons c text ih => simp [List.flatMap_cons, ih]; omega

theorem xorTransform_cases (data key : List Bit) :
    (data.length ≠ key.length ∧ xorTransform data key = .error (lengthMismatch key.length)) ∨
    (data.length = key.length ∧ xorTransform data key = .ok (List.zipWith (fun d k => d ^^^ k) data key)) := by
  unfold xorTransform
  by_cases h : data.length ≠ key.length
  · exact .inl ⟨h, if_pos h⟩
  · exact .inr ⟨by simpa using h, if_neg h⟩

theorem bitsToText_cases (bits : List Bit) :
    (bits.length % 8 ≠ 0 ∧ bitsToText bits = .error (malformedBits bits.length)) ∨
    (bits.length % 8 = 0 ∧ bitsToText bits = .ok ((List.range (bits.length / 8)).map (charAt bits))) := by
  unfold bitsToText
  by_cases h : bits.length % 8 ≠ 0
  · exact .inl ⟨h, if_pos h⟩
  · exact .inr ⟨by simpa using h, if_neg h⟩

end Sys2Proof.Machine
end

