-- ==== Sys2Proof/Laws/HostPort.lean ====
section
/-! SUPPORT. What a step can do, said once. -/

namespace Sys2Proof.Machine

theorem serve_idle (p : Params) (run : Meanings) (s : State) (h : s.pending = []) : serve p run s = .next s := by
  simp [serve, h]

theorem serve_access (p : Params) (run : Meanings) (s : State) (a : Access) (rest : List Access)
    (h : s.pending = a :: rest) : serve p run s = access p run { s with pending := rest } a := by
  simp [serve, h]

theorem step_idle (s : State) (h : s.pending = []) : step s = .next s := serve_idle _ _ s h

theorem step_access (s : State) (a : Access) (rest : List Access) (h : s.pending = a :: rest) :
    step s = access Config.params exec { s with pending := rest } a := serve_access _ _ s a rest h

theorem stepAt_idle (p : Params) (s : State) (h : s.pending = []) : stepAt p s = .next s := serve_idle _ _ s h

theorem stepAt_access (p : Params) (s : State) (a : Access) (rest : List Access) (h : s.pending = a :: rest) :
    stepAt p s = access p (execAt p) { s with pending := rest } a := serve_access _ _ s a rest h

/-- A write to `CMD` runs the command or raises `IllegalCommand`. -/
theorem command_cases (run : Meanings) (w : Word) (s : State) :
    (∃ i, decode w = .ok i ∧ command run w s = run i s) ∨
    ((∀ i, decode w ≠ .ok i) ∧ command run w s = .next (raise (illegalCommand w) s)) := by
  unfold command
  cases h : decode w with
  | ok i => exact .inl ⟨i, rfl, rfl⟩
  | error e => exact .inr ⟨fun i hi => by simp at hi, rfl⟩

theorem accessReg_cases (p : Params) (r : Nat) (k : Reg → State) :
    (∃ x, regOfNumber p r = some x ∧ accessReg p r k = .next (k x)) ∨
    (regOfNumber p r = none ∧ accessReg p r k = .refused (.noSuchRegister r)) := by
  unfold accessReg
  cases h : regOfNumber p r with
  | some x => exact .inl ⟨x, rfl, rfl⟩
  | none => exact .inr ⟨rfl, rfl⟩

theorem accessCell_cases (p : Params) (b : Buffer) (a : Nat) (t : State) :
    (a < capacity p b ∧ accessCell p b a t = .next t) ∨
    (capacity p b ≤ a ∧ accessCell p b a t = .refused (.noSuchCell b a)) := by
  unfold accessCell
  by_cases h : a < capacity p b
  · exact .inl ⟨h, if_pos h⟩
  · exact .inr ⟨by omega, if_neg h⟩

/-- One step more of a run of any machine. -/
theorem core_run_next (M : Host.Core) (k : Nat) (s t : M.State) (h : M.step s = .next t) :
    M.run (k + 1) s = M.run k t := by
  rw [Host.Core.run, h]

/-- One step more of a run of this machine. -/
theorem run_next (k : Nat) (s t : State) (h : step s = .next t) :
    Sys2Proof.core.run (k + 1) s = Sys2Proof.core.run k t := core_run_next Sys2Proof.core k s t h

end Sys2Proof.Machine
end

