-- ==== Sys2Proof/Laws/PerInstr.lean ====
section
/-! SUPPORT. Per command: it is well formed, and its word decodes to it. -/

namespace Sys2Proof.Laws

/-- The command is well formed and decoding its word gives it back. -/
def Encoding.Statement (i : Sys2Proof.Instr) : Prop := i.wf = true ∧ decode (encode i) = .ok i

theorem Encoding.init : Encoding.Statement .init := by unfold Encoding.Statement; decide
theorem Encoding.step : Encoding.Statement .step := by unfold Encoding.Statement; decide
theorem Encoding.gen : Encoding.Statement .gen := by unfold Encoding.Statement; decide
theorem Encoding.period : Encoding.Statement .period := by unfold Encoding.Statement; decide
theorem Encoding.classifyExact : Encoding.Statement .classifyExact := by unfold Encoding.Statement; decide
theorem Encoding.classifyTwoval : Encoding.Statement .classifyTwoval := by unfold Encoding.Statement; decide
theorem Encoding.t2b : Encoding.Statement .t2b := by unfold Encoding.Statement; decide
theorem Encoding.b2t : Encoding.Statement .b2t := by unfold Encoding.Statement; decide
theorem Encoding.xor : Encoding.Statement .xor := by unfold Encoding.Statement; decide
theorem Encoding.enc : Encoding.Statement .enc := by unfold Encoding.Statement; decide
theorem Encoding.dec : Encoding.Statement .dec := by unfold Encoding.Statement; decide

end Sys2Proof.Laws
end

