-- ==== Sys2Proof/Tests/Slice0.lean ====
section
/-! SUPPORT. Tests with values written out in the spec (95_test_vectors.md, opcode_table.json), smoke tests of the
checks, and a witness for the hypotheses of each statement. -/

namespace Sys2Proof.Tests

open Sys2Proof Sys2Proof.Machine

/-- A field of the next state, where there is one. -/
def after {α : Type} (o : Host.Outcome State Fault Refusal) (f : State → α) : Option α :=
  match o with
  | .next t => some (f t)
  | .fault _ => none
  | .refused _ => none

/-- Cells from index 0. -/
def filled {w : Nat} (vs : List (BitVec w)) : Memory w := Memory.write [] 0 vs

/-- A configuration in the registers: convention, degree, taps, seed. -/
def configured (conv degree seed : Word) (taps : List Word) : State :=
  { State.reset with
    conv := conv
    degree := degree
    seed := seed
    ntap := BitVec.ofNat 32 taps.length
    tap := taps ++ List.replicate (16 - taps.length) 0#32 }

/-- The configuration of SEM6's known vector 1 (95_test_vectors.md V1). -/
def v1 : State := configured 1#32 4#32 9#32 [4#32, 1#32]

/-- A keystream, data bits and a text in the buffers. -/
def loaded (key data : List Bit) (text : List Word) : State :=
  { State.reset with
    ks := filled key
    kslen := BitVec.ofNat 32 key.length
    db := filled data
    dblen := BitVec.ofNat 32 data.length
    tx := filled text
    txlen := BitVec.ofNat 32 text.length }

/-! ## Decoding: the words written out from the encodings of opcode_table.json -/

theorem test_decode_init : decode 0b00000000000000000000000000000001#32 = .ok .init := by decide
theorem test_decode_step : decode 0b00000000000000000000000000000010#32 = .ok .step := by decide
theorem test_decode_gen : decode 0b00000000000000000000000000000011#32 = .ok .gen := by decide
theorem test_decode_period : decode 0b00000000000000000000000000010000#32 = .ok .period := by decide
theorem test_decode_classify_exact : decode 0b00000000000000000000000000010001#32 = .ok .classifyExact := by decide
theorem test_decode_classify_twoval : decode 0b00000000000000000000000100010001#32 = .ok .classifyTwoval := by decide
theorem test_decode_t2b : decode 0b00000000000000000000000000100000#32 = .ok .t2b := by decide
theorem test_decode_b2t : decode 0b00000000000000000000000000100001#32 = .ok .b2t := by decide
theorem test_decode_xor : decode 0b00000000000000000000000000100010#32 = .ok .xor := by decide
theorem test_decode_enc : decode 0b00000000000000000000000000100011#32 = .ok .enc := by decide
theorem test_decode_dec : decode 0b00000000000000000000000000100100#32 = .ok .dec := by decide
/-- 95_test_vectors.md V41. -/
theorem test_decode_illegal :
    decode 0x00000000#32 = .error .opcodeUnknown ∧ decode 0x00000012#32 = .error .opcodeUnknown ∧
    decode 0x00000101#32 = .error .selectorNotLegal ∧ decode 0x00000211#32 = .error .selectorNotLegal ∧
    decode 0x0000FF11#32 = .error .selectorNotLegal ∧ decode 0x00010011#32 = .error .reservedNotZero ∧
    decode 0x80000003#32 = .error .reservedNotZero := by decide
theorem test_decode_table_word : decodeTableWord 32 0x111 = some .classifyTwoval ∧ decodeTableWord 32 0x25 = none := by
  decide

/-! ## The checks refuse what is ill formed -/

theorem test_wf_refuses_reserved : CommandFields.wf { opc := 0x03#8, arg := 0#8, rsv := 1#16 } = false := by decide
theorem test_wf_refuses_opcode : CommandFields.wf { opc := 0x04#8, arg := 0#8, rsv := 0#16 } = false := by decide
theorem test_wf_refuses_selector_n : CommandFields.wf { opc := 0x01#8, arg := 1#8, rsv := 0#16 } = false := by decide
theorem test_wf_refuses_selector_a : CommandFields.wf { opc := 0x11#8, arg := 2#8, rsv := 0#16 } = false := by decide
theorem test_wf_accepts : CommandFields.wf { opc := 0x11#8, arg := 1#8, rsv := 0#16 } = true := by decide
theorem test_memory_wf_refuses_order : ¬ Memory.wf ([(2, 1#1), (1, 1#1)] : Memory 1) := by decide
theorem test_memory_wf_refuses_blank : ¬ Memory.wf ([(2, 0#1)] : Memory 1) := by decide
theorem test_params_valid : Config.params.Valid ∧ ¬ Params.Valid { Config.params with cmax := 1 } := by decide

/-! ## Commands -/

/-- V20 rows a and j, the first and the last check; R101's example. -/
theorem test_init_ok : after (exec .init v1) (fun t => (t.lfsr, t.kslen, statusWord t)) = some (9#32, 0#32, 0x10#32) := by
  decide
theorem test_init_seed_check :
    after (exec .init (configured 0#32 4#32 0x80000040#32 [0#32, 3#32])) (fun t => (statusWord t, t.errinfo)) =
      some (0x01#32, 0x05000006#32) := by decide

/-- V17, TOPFB taps [3,1] from 1001 and 1100: the feedback merges by OR. -/
theorem test_step_topfb_or :
    after (exec .step { configured 1#32 4#32 9#32 [3#32, 1#32] with run := true, lfsr := 9#32 })
      (fun t => (t.lfsr, t.out, t.kslen, t.ks)) = some (4#32, 1#1, 1#32, [(0, 1#1)]) := by decide
/-- V17, PREPEND taps [2,3] from 0100. -/
theorem test_step_prepend :
    after (exec .step { configured 0#32 4#32 9#32 [2#32, 3#32] with run := true, lfsr := 4#32 })
      (fun t => (t.lfsr, t.out)) = some (9#32, 0#1) := by decide

/-- R103's example: V1's configuration, 15 bits. -/
theorem test_gen_v1 :
    after (exec .gen { v1 with len := 15#32 }) (fun t => (ksSeq t, t.lfsr, statusWord t)) =
      some ([1, 0, 0, 1, 0, 0, 0, 1, 1, 1, 1, 0, 1, 0, 1], 9#32, 0x30#32) := by decide
/-- V50: capacity after validation. -/
theorem test_gen_capacity :
    after (exec .gen { v1 with len := 262145#32 }) (fun t => (statusWord t, t.errinfo)) =
      some (0x07#32, 0x00040001#32) := by decide

/-- V23, the row `101011`. -/
theorem test_period_101011 :
    after (exec .period (loaded [1, 0, 1, 0, 1, 1] [] [])) (fun t => (t.period, t.cls)) = some (5#32, .none) := by
  decide
/-- V26: the empty sequence. -/
theorem test_period_empty : after (exec .period State.reset) (fun t => (statusWord t, t.errinfo)) =
    some (0x02#32, 0#32) := by decide

/-- V24, the row `0010111` at degree 3. -/
theorem test_classify_exact :
    after (exec .classifyExact { loaded [0, 0, 1, 0, 1, 1, 1] [] [] with degree := 3#32 })
      (fun t => (t.period, t.maxper, classCode t.cls)) = some (7#32, 7#32, 1#32) := by decide
/-- V14: degree 1, a constant sequence. -/
theorem test_classify_exact_degree_one :
    after (exec .classifyExact { loaded [0, 0, 0] [] [] with degree := 1#32 })
      (fun t => (t.period, t.maxper, classCode t.cls)) = some (1#32, 1#32, 1#32) := by decide
theorem test_classify_twoval_degree_one :
    after (exec .classifyTwoval { loaded [0, 0, 0] [] [] with degree := 1#32 })
      (fun t => (t.period, t.maxper, classCode t.cls)) = some (1#32, 1#32, 3#32) := by decide
/-- V24, the row `101` at degree 2. -/
theorem test_classify_twoval :
    after (exec .classifyTwoval { loaded [1, 0, 1] [] [] with degree := 2#32 })
      (fun t => (t.period, t.maxper, classCode t.cls)) = some (2#32, 3#32, 2#32) := by decide

/-- V30: "Hi". -/
theorem test_t2b_hi :
    after (exec .t2b (loaded [] [] [0x48#32, 0x69#32])) dbSeq =
      some [0, 1, 0, 0, 1, 0, 0, 0, 0, 1, 1, 0, 1, 0, 0, 1] := by decide
/-- V36: the least offending index. -/
theorem test_t2b_encoding :
    after (exec .t2b (loaded [] [] [0x41#32, 0x100#32, 0x263A#32])) (fun t => (statusWord t, t.errinfo)) =
      some (0x05#32, 1#32) := by decide

/-- V31: 208. -/
theorem test_b2t :
    after (exec .b2t (loaded [] [1, 1, 0, 1, 0, 0, 0, 0] [])) txSeq = some [0xD0#32] := by decide
/-- S6: 7 bits. -/
theorem test_b2t_malformed :
    after (exec .b2t (loaded [] [0, 1, 0, 0, 0, 0, 0] [])) (fun t => (statusWord t, t.errinfo)) =
      some (0x04#32, 7#32) := by decide

/-- V32. -/
theorem test_xor :
    after (exec .xor (loaded [1, 0, 0, 1, 0, 0, 0, 1] [0, 1, 0, 0, 1, 0, 0, 0] [])) dbSeq =
      some [1, 1, 0, 1, 1, 0, 0, 1] := by decide
/-- S7: lengths 7 and 8. -/
theorem test_xor_mismatch :
    after (exec .xor (loaded [1, 0, 0, 1, 0, 0, 0, 1] [0, 1, 0, 0, 0, 0, 0] [])) (fun t => (statusWord t, t.errinfo)) =
      some (0x03#32, 8#32) := by decide

/-- V33, the first character: 'H' under 10010001 is 0xD9. -/
theorem test_enc :
    after (exec .enc (loaded [1, 0, 0, 1, 0, 0, 0, 1] [] [0x48#32])) dbSeq =
      some [1, 1, 0, 1, 1, 0, 0, 1] := by decide
/-- V36: EncodingError before LengthMismatch. -/
theorem test_enc_order :
    after (exec .enc (loaded [1, 0, 0, 1, 0, 0, 0, 1] [] [0x141#32, 0x42#32])) (fun t => (statusWord t, t.errinfo)) =
      some (0x05#32, 0#32) := by decide

/-- V33, the first character back. -/
theorem test_dec :
    after (exec .dec (loaded [1, 0, 0, 1, 0, 0, 0, 1] [1, 1, 0, 1, 1, 0, 0, 1] [])) txSeq = some [0x48#32] := by
  decide
/-- V36: equal lengths of 7, then MalformedBits. -/
theorem test_dec_malformed :
    after (exec .dec (loaded [1, 0, 0, 1, 0, 0, 0] [0, 0, 0, 0, 0, 0, 0] [])) (fun t => (statusWord t, t.errinfo)) =
      some (0x04#32, 7#32) := by decide

/-! ## The host's port -/

/-- 60_exceptions.md R151 and 41_period_classifier.md R122: the numbers. -/
theorem test_codes :
    [ErrCode.ok, .invalidConfig, .invalidSequence, .lengthMismatch, .malformedBits, .encodingError, .illegalCommand,
      .capacityExceeded].map (fun e => (errCode e).toNat) = [0, 1, 2, 3, 4, 5, 6, 7] ∧
    [ClassTag.none, .primitive, .irreducibleNonPrimitive, .reducible].map (fun c => (classCode c).toNat) =
      [0, 1, 2, 3] := by decide
/-- V61: a configuration write clears RUN and keeps OUT. -/
theorem test_seed_write_closes_run :
    after (step { v1 with run := true, out := 1#1, pending := [.writeReg 6 9#32] }) statusWord = some 0x20#32 := by
  decide
/-- V61: STATE ignores a write. -/
theorem test_state_is_read_only :
    after (step { v1 with lfsr := 9#32, run := true, pending := [.writeReg 7 5#32] }) (fun t => (t.lfsr, t.run)) =
      some (9#32, true) := by decide
/-- V61: registers 15 and 32 do not exist. -/
theorem test_missing_registers :
    after (step { State.reset with pending := [.readReg 15] }) (fun _ => ()) = none ∧
    after (step { State.reset with pending := [.readReg 32] }) (fun _ => ()) = none ∧
    after (step { State.reset with pending := [.readReg 31] }) (fun t => t.answers) = some [0#32] := by decide
/-- V41: an illegal word. -/
theorem test_illegal_word :
    after (step { v1 with run := true, pending := [.writeReg 0 0x00010011#32] }) (fun t => (statusWord t, t.errinfo)) =
      some (0x16#32, 0x00010011#32) := by decide
theorem test_fetch_word : after (step (State.reset.withFetchWord 32 0x23)) statusWord = some 0#32 := by decide
/-- The pseudo-instructions CONFIG, TAPS and ANALYZE of R85, with the numbers of P1. -/
theorem test_line_config :
    lineConfig 1#32 4#32 9#32 = [.writeReg 3 1#32, .writeReg 4 4#32, .writeReg 6 9#32] ∧
    lineTaps [4#32, 1#32] = [.writeReg 16 4#32, .writeReg 17 1#32, .writeReg 5 2#32] ∧
    lineAnalyze 4 .exact = [.writeReg 8 45#32, .writeReg 0 3#32, .writeReg 0 0x11#32] := by decide

/-! ## Witnesses: states and operands that meet the hypotheses of each statement that has some

A statement with several clauses has a witness for each clause, at the ends of its range. `ElevenWordsDecode`,
`InitAndGenValidate`, `FailedCommandChangesNothingElse`, `CommandsWriteOnlyTheirOwn`, `FirstCommandAfterReset`,
`StepIsTheStepAtTheReferenceSizes` and `InvariantAtReset` have no hypotheses on the state. -/

/-- `v1` with lengths in the four length registers. -/
def lengths (len kslen dblen txlen : Nat) : State :=
  { v1 with
    len := BitVec.ofNat 32 len
    kslen := BitVec.ofNat 32 kslen
    dblen := BitVec.ofNat 32 dblen
    txlen := BitVec.ofNat 32 txlen }

/-- `v1` with one access pending. -/
def withAccess (a : Access) : State := { v1 with pending := [a] }

theorem witness_DecodeAndEncodeAgree :
    (Instr.wf .init = true ∧ Instr.wf .classifyTwoval = true) ∧ decode 0x111#32 = .ok .classifyTwoval ∧
      ∀ i : Instr, 0x25#32 ≠ encode i := by
  refine ⟨by decide, by decide, fun i => ?_⟩
  cases i <;> decide

theorem witness_IllegalWordRaisesIllegalCommand :
    (withAccess (.writeReg 0 0x10001#32)).pending = [.writeReg 0 0x10001#32] ∧
    (0x10001#32).toNat / 2 ^ 16 ≠ 0 ∧
    (0x04#32).toNat % 256 ∉ [0x01, 0x02, 0x03, 0x10, 0x11, 0x20, 0x21, 0x22, 0x23, 0x24] ∧
    ((0x101#32).toNat % 256 ≠ 0x11 ∧ (0x101#32).toNat / 256 % 256 ≠ 0) ∧
    ((0x211#32).toNat % 256 = 0x11 ∧ 2 ≤ (0x211#32).toNat / 256 % 256) ∧
    ¬ ((0x111#32).toNat / 2 ^ 16 ≠ 0 ∨
      (0x111#32).toNat % 256 ∉ [0x01, 0x02, 0x03, 0x10, 0x11, 0x20, 0x21, 0x22, 0x23, 0x24] ∨
      ((0x111#32).toNat % 256 ≠ 0x11 ∧ (0x111#32).toNat / 256 % 256 ≠ 0) ∨
      ((0x111#32).toNat % 256 = 0x11 ∧ 2 ≤ (0x111#32).toNat / 256 % 256)) := by decide

theorem witness_StepRunsTheDecodedCommand :
    (withAccess (.writeReg 0 0x24#32)).pending = [.writeReg 0 0x24#32] ∧ decode 0x24#32 = .ok .dec ∧
    (withAccess (.readReg 0)).pending = [.readReg 0] := by decide

theorem witness_IdleAndPlacedCommand : State.reset.pending = [] ∧ decode 0x24#32 = .ok .dec := by decide

/-- For `InitAndGenValidate`, `InitOpensARun` and `GenerateGivesTheRunsBits`: valid and not. -/
theorem witness_ConfigValid :
    ConfigValid Config.params v1 ∧ ¬ ConfigValid Config.params State.reset ∧
    ConfigValid Config.params (configured 0#32 1#32 0#32 [0#32]) ∧
    ConfigValid Config.params (configured 1#32 16#32 0xFFFF#32 (List.replicate 16 16#32)) := by decide

theorem witness_FirstFailingCheckIsReported_early :
    1 < (configured 2#32 4#32 9#32 [4#32]).conv.toNat ∧
    (configured 1#32 0#32 9#32 [4#32]).degree.toNat < 1 ∧
    Config.params.nmax < (configured 1#32 17#32 9#32 [4#32]).degree.toNat ∧
    (configured 1#32 16#32 9#32 []).ntap.toNat < 1 ∧
    Config.params.tmax < (configured 1#32 1#32 9#32 (List.replicate 17 1#32)).ntap.toNat := by decide

/-- The second tap is the first out of range, `n` under PREPEND and 0 under TOPFB. -/
theorem witness_FirstFailingCheckIsReported_tap :
    let s := configured 0#32 4#32 9#32 [3#32, 4#32]
    let s' := configured 1#32 4#32 9#32 [4#32, 0#32]
    ((tapsOf s)[1]? = some 4 ∧ ¬ TapInRange s.conv s.degree.toNat 4 ∧
      ∀ j < 1, ∀ u, (tapsOf s)[j]? = some u → TapInRange s.conv s.degree.toNat u) ∧
    ((tapsOf s')[1]? = some 0 ∧ ¬ TapInRange s'.conv s'.degree.toNat 0 ∧
      ∀ j < 1, ∀ u, (tapsOf s')[j]? = some u → TapInRange s'.conv s'.degree.toNat u) := by
  refine ⟨⟨by decide, by decide, fun j hj u hu => ?_⟩, ⟨by decide, by decide, fun j hj u hu => ?_⟩⟩
  · obtain rfl : j = 0 := by omega
    obtain rfl : 3 = u := by simpa [tapsOf, configured] using hu
    decide
  · obtain rfl : j = 0 := by omega
    obtain rfl : 4 = u := by simpa [tapsOf, configured] using hu
    decide

/-- The least offending seed bit is `n`, and is 31. -/
theorem witness_FirstFailingCheckIsReported_seed :
    let s := configured 0#32 4#32 0x10#32 [3#32]
    let s' := configured 0#32 4#32 0x80000000#32 [3#32]
    ((∀ t ∈ tapsOf s, TapInRange s.conv s.degree.toNat t) ∧ s.seed.getLsbD 4 = true ∧
      ∀ j < 4, 4 ≤ j → s.seed.getLsbD j = false) ∧
    ((∀ t ∈ tapsOf s', TapInRange s'.conv s'.degree.toNat t) ∧ s'.seed.getLsbD 31 = true ∧
      ∀ j < 31, 4 ≤ j → s'.seed.getLsbD j = false) := by decide

theorem witness_PrependStepOnLists :
    ([0#1, 0#1, 1#1, 0#1] ≠ [] ∧ ∀ t ∈ [2, 3], t < [0#1, 0#1, 1#1, 0#1].length) ∧
    ([1#1] ≠ [] ∧ ∀ t ∈ [0], t < [1#1].length) := by decide

theorem witness_PrependStepOnRegisterIsStepOnList :
    (1 ≤ 1 ∧ 1 ≤ 32 ∧ ∀ t ∈ [0], t < 1) ∧ (1 ≤ 32 ∧ 32 ≤ 32 ∧ ∀ t ∈ [0, 31], t < 32) := by decide

theorem witness_TopfbStepOnIntegers :
    (1 ≤ 4 ∧ 4 ≤ 32 ∧ [3, 1] ≠ [] ∧ (∀ t ∈ [3, 1], 1 ≤ t ∧ t ≤ 4) ∧ (9#32).toNat < 2 ^ 4) ∧
    (1 ≤ 32 ∧ 32 ≤ 32 ∧ [32] ≠ [] ∧ (∀ t ∈ [32], 1 ≤ t ∧ t ≤ 32) ∧ (0xFFFFFFFF#32).toNat < 2 ^ 32) := by decide

/-- The last two clauses at their ends: 4 beside an entry 4, 4 above every entry of R99's list, and 32. -/
theorem witness_TapOrderAndMultiplicity :
    [4, 1].Perm [1, 4] ∧ (4 ∈ [4, 1] ∧ 4 ≤ 4) ∧ (4 ≤ 32 ∧ ∀ u ∈ [1], u < 4) ∧ (32 ≤ 32 ∧ ∀ u ∈ [31], u < 32) := by
  decide

/-- For `StepKeepsTheWidth`, `ZeroStateIsAFixedPoint` and `PeriodBoundWhenLeavingBitTapped`: a valid configuration of
each convention whose leaving bit is tapped, and a zero seed. -/
theorem witness_LfsrConfigValid :
    ((configOf v1).Valid ∧ v1.seed.toNat < 2 ^ (configOf v1).degree ∧ (configOf v1).LeavingBitTapped) ∧
    ((configOf (configured 0#32 4#32 9#32 [2#32, 3#32])).Valid ∧
      (configOf (configured 0#32 4#32 9#32 [2#32, 3#32])).LeavingBitTapped) ∧
    (configOf (configured 0#32 4#32 0#32 [3#32])).seed = 0#32 := by
  refine ⟨⟨⟨by decide, by decide, ?_, by decide⟩, by decide, ?_⟩, ⟨⟨by decide, by decide, ?_, by decide⟩, ?_⟩, rfl⟩
  · show ∀ t ∈ [4, 1], 1 ≤ t ∧ t ≤ 4
    decide
  · show [4, 1].count 1 % 2 = 1 ∧ 4 ∈ [4, 1]
    decide
  · show ∀ t ∈ [2, 3], t < 4
    decide
  · show [2, 3].count 3 % 2 = 1
    decide

theorem witness_StepAppendsOneBit :
    v1.run = false ∧
    ({ lengths 0 262144 0 0 with run := true }.run = true ∧ Config.params.lmax ≤ (lengths 0 262144 0 0).kslen.toNat) ∧
    ({ lengths 0 262143 0 0 with run := true }.run = true ∧ (lengths 0 262143 0 0).kslen.toNat < Config.params.lmax) ∧
    v1.conv ≠ 0#32 ∧ (configured 0#32 4#32 9#32 [3#32]).conv = 0#32 := by decide

theorem witness_GenWritesTheSequence :
    (ConfigValid Config.params (lengths 262145 0 0 0) ∧ Config.params.lmax < (lengths 262145 0 0 0).len.toNat) ∧
    (ConfigValid Config.params (lengths 262144 0 0 0) ∧ (lengths 262144 0 0 0).len.toNat ≤ Config.params.lmax) ∧
    (ConfigValid Config.params (lengths 0 0 0 0) ∧ (lengths 0 0 0 0).len.toNat = 0) := by decide

theorem witness_GenIsInitAndSteps :
    (lengths 15 0 0 0).ks.wf ∧ ConfigValid Config.params (lengths 15 0 0 0) ∧
    (lengths 15 0 0 0).len.toNat + 3 ≤ Config.params.lmax := by decide

theorem witness_GenDependsOnConfigurationAndLength :
    let s := lengths 15 0 0 0
    let s' := { lengths 15 9 0 0 with ks := [(3, 1#1)], err := .encodingError }
    ConfigValid Config.params s ∧ s.len.toNat ≤ Config.params.lmax ∧ s'.conv = s.conv ∧ s'.degree = s.degree ∧
      s'.ntap = s.ntap ∧ tapsOf s' = tapsOf s ∧ s'.seed = s.seed ∧ s'.len = s.len := by decide

theorem witness_ConventionsCorrespond :
    (1 ≤ 4 ∧ 4 ≤ 32 ∧ 0 ∈ [0, 3] ∧ (∀ a ∈ [0, 3], a < 4) ∧ (9#32).toNat < 2 ^ 4) ∧
    (1 ≤ 1 ∧ 1 ≤ 32 ∧ 0 ∈ [0] ∧ (∀ a ∈ [0], a < 1) ∧ (1#32).toNat < 2 ^ 1) ∧
    (1 ≤ 32 ∧ 32 ≤ 32 ∧ 0 ∈ [0, 31] ∧ (∀ a ∈ [0, 31], a < 32) ∧ (0x80000000#32).toNat < 2 ^ 32) := by decide

/-- For `PeriodIsTheLeast` and `PeriodBoundsAndShift`. -/
theorem witness_PeriodIsTheLeast : [0#1] ≠ [] ∧ IsPeriodOf [1, 0, 1, 0, 1, 1] 5 ∧ ¬ IsPeriodOf [1, 0, 1, 0, 1, 1] 2 := by
  decide

theorem witness_PeriodCommand :
    Config.params.lmax < (lengths 0 262145 0 0).kslen.toNat ∧ (lengths 0 0 0 0).kslen.toNat = 0 ∧
    1 ≤ (lengths 0 1 0 0).kslen.toNat ∧ (lengths 0 262144 0 0).kslen.toNat ≤ Config.params.lmax := by decide

theorem witness_ClassifyCommands :
    (1 ≤ (lengths 0 1 0 0).kslen.toNat ∧ (lengths 0 1 0 0).kslen.toNat ≤ Config.params.lmax) ∧
    { lengths 0 1 0 0 with degree := 0#32 }.degree.toNat < 1 ∧
    Config.params.nmax < { lengths 0 1 0 0 with degree := 17#32 }.degree.toNat ∧
    1 ≤ { lengths 0 1 0 0 with degree := 1#32 }.degree.toNat ∧
    { lengths 0 1 0 0 with degree := 16#32 }.degree.toNat ≤ Config.params.nmax := by decide

theorem witness_StrategiesPartOnlyAtDegreeOne :
    [0#1, 0#1] ≠ [] ∧ 2 ≤ 2 ∧ (∀ x ∈ [0#1, 0#1], ∀ y ∈ [0#1, 0#1], x = y) ∧
      ¬ (∀ x ∈ [0#1, 1#1], ∀ y ∈ [0#1, 1#1], x = y) := by decide

theorem witness_TextToBitsCommand :
    let bad := loaded [] [] [0xFF#32, 0x100#32]
    let good := loaded [] [] [0xFF#32, 0#32]
    Config.params.cmax < (lengths 0 0 0 32769).txlen.toNat ∧ (lengths 0 0 0 32768).txlen.toNat ≤ Config.params.cmax ∧
    (bad.txlen.toNat ≤ Config.params.cmax ∧ 1 < bad.txlen.toNat ∧ 255 < (bad.tx.read 1).toNat ∧ ∀ k < 1, (bad.tx.read k).toNat ≤ 255) ∧
    (good.txlen.toNat ≤ Config.params.cmax ∧ ∀ j < good.txlen.toNat, (good.tx.read j).toNat ≤ 255) := by decide

theorem witness_BitsToTextCommand :
    Config.params.lmax < (lengths 0 0 262145 0).dblen.toNat ∧
    ((lengths 0 0 262143 0).dblen.toNat ≤ Config.params.lmax ∧ (lengths 0 0 262143 0).dblen.toNat % 8 ≠ 0) ∧
    ((lengths 0 0 262144 0).dblen.toNat ≤ Config.params.lmax ∧ (lengths 0 0 262144 0).dblen.toNat % 8 = 0) := by
  decide

/-- For `XOR` and `DEC`: each order of lengths. -/
theorem witness_XorCommand_DecryptCommand :
    Config.params.lmax < (lengths 0 0 262145 0).dblen.toNat ∧
    ((lengths 0 262145 8 0).dblen.toNat ≤ Config.params.lmax ∧ Config.params.lmax < (lengths 0 262145 8 0).kslen.toNat) ∧
    ((lengths 0 8 7 0).dblen.toNat ≤ Config.params.lmax ∧ (lengths 0 8 7 0).kslen.toNat ≤ Config.params.lmax ∧
      (lengths 0 8 7 0).dblen ≠ (lengths 0 8 7 0).kslen) ∧
    ((lengths 0 7 7 0).dblen.toNat ≤ Config.params.lmax ∧ (lengths 0 7 7 0).dblen = (lengths 0 7 7 0).kslen ∧ (lengths 0 7 7 0).dblen.toNat % 8 ≠ 0) ∧
    ((lengths 0 262144 262144 0).dblen = (lengths 0 262144 262144 0).kslen ∧
      (lengths 0 262144 262144 0).dblen.toNat ≤ Config.params.lmax ∧
      (lengths 0 262144 262144 0).dblen.toNat % 8 = 0) := by decide

theorem witness_EncryptCommand :
    let bad := loaded [] [] [0x100#32]
    let short := loaded [] [] [0x48#32]
    let good := loaded [1, 0, 0, 1, 0, 0, 0, 1] [] [0x48#32]
    Config.params.cmax < (lengths 0 0 0 32769).txlen.toNat ∧
    ((lengths 0 262145 0 32768).txlen.toNat ≤ Config.params.cmax ∧
      Config.params.lmax < (lengths 0 262145 0 32768).kslen.toNat) ∧
    (bad.txlen.toNat ≤ Config.params.cmax ∧ bad.kslen.toNat ≤ Config.params.lmax ∧ 0 < bad.txlen.toNat ∧
      255 < (bad.tx.read 0).toNat ∧ ∀ k < 0, (bad.tx.read k).toNat ≤ 255) ∧
    (short.txlen.toNat ≤ Config.params.cmax ∧ short.kslen.toNat ≤ Config.params.lmax ∧
      (∀ j < short.txlen.toNat, (short.tx.read j).toNat ≤ 255) ∧ 8 * short.txlen.toNat ≠ short.kslen.toNat) ∧
    (good.txlen.toNat ≤ Config.params.cmax ∧ (∀ j < good.txlen.toNat, (good.tx.read j).toNat ≤ 255) ∧ 8 * good.txlen.toNat = good.kslen.toNat) := by
  decide

theorem witness_ConversionsAreInverse :
    (∀ c ∈ [0#32, 0xFF#32], c.toNat ≤ 255) ∧ (List.replicate 8 1#1).length % 8 = 0 := by simp

theorem witness_DecryptUndoesEncrypt :
    (∀ c ∈ [0xFF#32], c.toNat ≤ 255) ∧ (List.replicate 8 1#1).length = 8 * [0xFF#32].length := by simp

theorem witness_XorTransformIsItsOwnInverse : [1#1, 0#1].length = [1#1, 1#1].length := by decide

theorem witness_DecAfterEncRecoversTheText :
    let s := loaded [1, 0, 0, 1, 0, 0, 0, 1] [] [0x48#32]
    s.txlen.toNat ≤ Config.params.cmax ∧ (∀ j < s.txlen.toNat, (s.tx.read j).toNat ≤ 255) ∧
      8 * s.txlen.toNat = s.kslen.toNat := by decide

theorem witness_XorTwiceRestoresTheBlock :
    let s := loaded [1, 1] [1, 0] []
    s.db.wf ∧ s.dblen.toNat ≤ Config.params.lmax ∧ s.dblen = s.kslen := by decide

/-- `T2B` then `XOR`, and `XOR` then `B2T`, both succeed. -/
theorem witness_EncAndDecAreTheirParts :
    (∃ s t u, s.db.wf ∧ exec .t2b s = .next t ∧ t.err = .ok ∧ exec .xor t = .next u ∧ u.err = .ok) ∧
    (∃ s t u, exec .xor s = .next t ∧ t.err = .ok ∧ exec .b2t t = .next u ∧ u.err = .ok) :=
  ⟨⟨loaded [1, 0, 0, 1, 0, 0, 0, 1] [] [0x48#32], _, _, by decide, rfl, by decide, rfl, by decide⟩,
    ⟨loaded [1, 0, 0, 1, 0, 0, 0, 1] [0, 1, 0, 0, 1, 0, 0, 0] [], _, _, rfl, by decide, rfl, by decide⟩⟩

/-- One command word for each error, and for success. -/
theorem witness_ErrinfoAfterACommand :
    after (step { v1 with pending := [.writeReg 0 1#32] }) (·.err) = some .ok ∧
    after (step { v1 with pending := [.writeReg 0 2#32] }) (·.err) = some .invalidConfig ∧
    after (step { v1 with pending := [.writeReg 0 0x10#32] }) (·.err) = some .invalidSequence ∧
    after (step { lengths 0 8 7 0 with pending := [.writeReg 0 0x22#32] }) (·.err) = some .lengthMismatch ∧
    after (step { lengths 0 0 7 0 with pending := [.writeReg 0 0x21#32] }) (·.err) = some .malformedBits ∧
    after (step { loaded [] [] [256#32] with pending := [.writeReg 0 0x20#32] }) (·.err) = some .encodingError ∧
    after (step { v1 with pending := [.writeReg 0 0#32] }) (·.err) = some .illegalCommand ∧
    after (step { lengths 262145 0 0 0 with pending := [.writeReg 0 3#32] }) (·.err) = some .capacityExceeded := by
  decide

theorem witness_ErrorsByCommand : ErrCode.malformedBits ∈ mayRaise .dec ∧ after (exec .t2b v1) (·.err) = some .ok := by
  decide

/-- The two states differ in cell 2 of `KS`, beyond `KSLEN`. -/
theorem witness_CellsBeyondTheLengthDoNotInfluence :
    let s := loaded [1, 1] [1, 0] []
    let ks' : Memory 1 := [(0, 1#1), (1, 1#1), (2, 1#1)]
    ks'.read 2 ≠ s.ks.read 2 ∧ (∀ a < s.kslen.toNat, ks'.read a = s.ks.read a) ∧
      (∀ a < s.dblen.toNat, s.db.read a = s.db.read a) ∧ ∀ a < s.txlen.toNat, s.tx.read a = s.tx.read a := by
  decide

theorem witness_ConfigurationWriteClosesTheRun :
    (withAccess (.writeReg 3 9#32)).pending = [.writeReg 3 9#32] ∧ v1.tap.length = Config.params.tmax ∧
    IsConfigNumber Config.params 3 ∧ IsConfigNumber Config.params 6 ∧ IsConfigNumber Config.params 16 ∧
    IsConfigNumber Config.params 31 := by decide

theorem witness_OtherRegisterWrites :
    (withAccess (.writeReg 14 9#32)).pending = [.writeReg 14 9#32] ∧
    (withAccess (.writeReg 8 9#32)).pending = [.writeReg 8 9#32] ∧
    (withAccess (.writeReg 9 9#32)).pending = [.writeReg 9 9#32] ∧
    (withAccess (.writeReg 10 9#32)).pending = [.writeReg 10 9#32] ∧
    (withAccess (.writeReg 11 9#32)).pending = [.writeReg 11 9#32] := by decide

theorem witness_RegisterReads :
    (withAccess (.readReg 0)).pending = [.readReg 0] ∧ (withAccess (.readReg 31)).pending = [.readReg 31] ∧
    v1.tap.length = Config.params.tmax ∧ 31 ≠ 15 ∧ 31 < 16 + Config.params.tmax := by decide

theorem witness_CellAccesses :
    262143 < Config.params.lmax ∧ 32767 < Config.params.cmax ∧
    (withAccess (.writeKs 262143 1#1)).pending = [.writeKs 262143 1#1] ∧
    (withAccess (.writeDb 262143 1#1)).pending = [.writeDb 262143 1#1] ∧
    (withAccess (.writeTx 32767 1#32)).pending = [.writeTx 32767 1#32] ∧
    (withAccess (.readKs 0)).pending = [.readKs 0] ∧ (withAccess (.readDb 0)).pending = [.readDb 0] ∧
    (withAccess (.readTx 0)).pending = [.readTx 0] := by decide

theorem witness_OnlyMissingPlacesAreRefused :
    (withAccess (.readReg 15)).pending = [.readReg 15] ∧ Access.missing Config.params (.readReg 15) ∧
    Access.missing Config.params (.writeReg 32 0#32) ∧ ¬ Access.missing Config.params (.writeReg 31 0#32) ∧
    Access.missing Config.params (.writeKs 262144 1#1) ∧ ¬ Access.missing Config.params (.writeKs 262143 1#1) ∧
    Access.missing Config.params (.readTx 32768) ∧ ¬ Access.missing Config.params (.readTx 32767) ∧
    ¬ Access.missing Config.params .reset := by
  simp [Access.missing, Config.params, withAccess]

theorem witness_ResetClearsTheBlock : (withAccess .reset).pending = [.reset] := by decide

/-- `INIT` opens a run; a write to `SEED` and reset close one. -/
theorem witness_WhoOpensAndClosesARun :
    (v1.run = false ∧ after (step { v1 with pending := [.writeReg 0 1#32] }) (·.run) = some true) ∧
    after (step { v1 with run := true, pending := [.writeReg 6 9#32] }) (·.run) = some false ∧
    after (step { v1 with run := true, pending := [.reset] }) (·.run) = some false := by decide

theorem witness_TapsLineLoadsTheList :
    (∃ s : State, s.pending = lineTaps (List.replicate 16 1#32) ∧ s.tap.length = Config.params.tmax) ∧
    (List.replicate 16 1#32).length ≤ Config.params.tmax :=
  ⟨⟨{ v1 with pending := lineTaps (List.replicate 16 1#32) }, rfl, by decide⟩, by decide⟩

theorem witness_TextLineLoadsTheText :
    (∃ s : State, s.pending = lineText [0x48#32, 0x69#32]) ∧ [0x48#32, 0x69#32].length ≤ Config.params.cmax :=
  ⟨⟨{ v1 with pending := lineText [0x48#32, 0x69#32] }, rfl⟩, by decide⟩

/-- An open run in the middle of a sequence, with a step ahead. -/
theorem witness_StepKeepsTheInvariant :
    let s := { v1 with
      run := true
      lfsr := 4#32
      kslen := 1#32
      ks := [(0, 1#1)]
      pending := [.writeReg 0 2#32] }
    Inv Config.params s ∧ ∃ t, step s = .next t ∧ t.run = true := by
  refine ⟨?_, _, rfl, by decide⟩
  constructor <;> first | decide | rfl

/-- A small block: one tap entry, 8 bits, one character. -/
def small : Params := { nmax := 32, tmax := 1, lmax := 8, cmax := 1 }

/-- For `StepKeepsTheInvariant` at other sizes and `CommandsKeepTheInvariantForAllSizes`. -/
theorem witness_InvariantForAllSizes :
    small.Valid ∧ Inv small (State.resetAt small) ∧
      stepAt small { State.resetAt small with pending := [] } = .next (State.resetAt small) := by
  refine ⟨by decide, ?_, rfl⟩
  constructor <;> first | decide | rfl

/-- Register 17, cell 8 and the command `GEN` of 9 bits are refused or fail on the small block alone. -/
theorem witness_StepAtAllSizes :
    (Access.missing small (.readReg 17) ∧ ¬ Access.missing small (.readReg 16)) ∧
    (Access.missing small (.writeKs 8 1#1) ∧ ¬ Access.missing small (.writeKs 7 1#1)) ∧
    (withAccess (.writeReg 0 3#32)).pending = [.writeReg 0 3#32] ∧ decode 3#32 = .ok .gen ∧
    (∀ i, decode 4#32 ≠ .ok i) ∧ (withAccess .reset).pending = [.reset] := by
  refine ⟨by simp [Access.missing, small], by simp [Access.missing, small], by decide, by decide, fun i => ?_, by decide⟩
  cases i <;> decide

/-- The sizes reach a command: `GEN` of 9 bits exceeds the small block and not the reference one (R7, R103). -/
theorem test_sizes_reach_commands :
    let s := { configured 1#32 4#32 9#32 [4#32] with len := 9#32, pending := [.writeReg 0 3#32] }
    after (stepAt small s) (fun t => (statusWord t, t.errinfo)) = some (0x07#32, 9#32) ∧
    after (step s) (fun t => (t.kslen, t.err)) = some (9#32, .ok) := by decide

theorem witness_NoCapacityErrorWhenUnbounded :
    let p : Params := { Config.params with lmax := 2 ^ 32, cmax := 2 ^ 32 }
    2 ^ 32 ≤ p.lmax ∧ 2 ^ 32 ≤ p.cmax := by decide

end Sys2Proof.Tests
end

section
/-! SUPPORT. Which accesses of the host are served: the registers and cells that exist, and what a served access does
(10_state.md R21, R22, R35; 20_memory.md R43). -/

namespace Sys2Proof.Machine

theorem lowRegister_eq_none_iff : ∀ {r : Nat}, r < 16 → (lowRegister r = none ↔ r = 15) := by decide

theorem regOfNumber_eq_none_iff (p : Params) (r : Nat) : regOfNumber p r = none ↔ r = 15 ∨ 16 + p.tmax ≤ r := by
  unfold regOfNumber
  split
  case isTrue hlow =>
    rw [lowRegister_eq_none_iff hlow]
    omega
  case isFalse hhigh =>
    split
    case isTrue htap =>
      simp only [reduceCtorEq, false_iff]
      omega
    case isFalse hbeyond =>
      simp only [true_iff]
      omega

section
variable {p : Params} {r c : Nat} {b : Buffer} {x : Reg}

theorem accessReg_of_some (k : Reg → State) (h : regOfNumber p r = some x) : accessReg p r k = .next (k x) := by
  simp [accessReg, h]

theorem accessReg_of_missing (k : Reg → State) (h : r = 15 ∨ 16 + p.tmax ≤ r) :
    accessReg p r k = .refused (.noSuchRegister r) := by
  simp [accessReg, (regOfNumber_eq_none_iff p r).mpr h]

theorem accessReg_of_not_missing (k : Reg → State) (h : ¬ (r = 15 ∨ 16 + p.tmax ≤ r)) :
    ∃ t, accessReg p r k = .next t := by
  obtain ⟨x, _, hx⟩ | ⟨hnone, _⟩ := accessReg_cases p r k
  · exact ⟨k x, hx⟩
  · exact absurd ((regOfNumber_eq_none_iff p r).mp hnone) h

theorem accessCell_of_missing (t : State) (h : capacity p b ≤ c) :
    accessCell p b c t = .refused (.noSuchCell b c) := if_neg (Nat.not_lt.mpr h)

theorem accessCell_of_not_missing (t : State) (h : ¬ capacity p b ≤ c) : accessCell p b c t = .next t :=
  if_pos (Nat.lt_of_not_le h)

end

section
variable {p : Params} {run : Meanings} {s : State} {w : Word} {i : Instr}

theorem command_of_decode (h : decode w = .ok i) : command run w s = run i s := by
  simp [command, h]

theorem command_of_illegal (h : ∀ i, decode w ≠ .ok i) :
    command run w s = .next (raise (illegalCommand w) s) := by
  obtain ⟨i, hi, _⟩ | ⟨_, hraise⟩ := command_cases run w s
  · exact absurd hi (h i)
  · exact hraise

/-- A write to `CMD` answers a next state when every command does. -/
theorem command_next (hrun : ∀ i s, ∃ t, run i s = .next t) (w : Word) (s : State) :
    ∃ t, command run w s = .next t := by
  obtain ⟨i, _, hi⟩ | ⟨_, hraise⟩ := command_cases run w s
  · exact hi ▸ hrun i s
  · exact ⟨_, hraise⟩

theorem access_writeCmd : access p run s (.writeReg 0 w) = command run w s := rfl

theorem access_writeReg {r : Nat} (v : Word) (hr : r ≠ 0) :
    access p run s (.writeReg r v) = accessReg p r (writeReg v s) := if_neg hr

theorem access_readReg_of_some {r : Nat} {x : Reg} (h : regOfNumber p r = some x) :
    access p run s (.readReg r) = .next (answer (readReg s x) s) := accessReg_of_some _ h

theorem access_reset : access p run s .reset = .next (resetBlock p s) := rfl

theorem access_of_missing {a : Access} (h : a.missing p) : ∃ e, access p run s a = .refused e := by
  cases a with
  | readReg r => exact ⟨_, accessReg_of_missing _ h⟩
  | writeReg r v =>
    have hr : r ≠ 0 := by
      obtain rfl | hr := h <;> omega
    exact ⟨_, (access_writeReg v hr).trans (accessReg_of_missing _ h)⟩
  | readKs c | readDb c | readTx c => exact ⟨_, accessCell_of_missing _ h⟩
  | writeKs c v | writeDb c v | writeTx c v => exact ⟨_, accessCell_of_missing _ h⟩
  | reset => exact h.elim

theorem access_of_not_missing (hrun : ∀ i s, ∃ t, run i s = .next t) {a : Access} (h : ¬ a.missing p) :
    ∃ t, access p run s a = .next t := by
  cases a with
  | readReg r => exact accessReg_of_not_missing _ h
  | writeReg r v =>
    by_cases hr : r = 0
    · subst hr
      exact command_next hrun v s
    · rw [access_writeReg v hr]
      exact accessReg_of_not_missing _ h
  | readKs c | readDb c | readTx c => exact ⟨_, accessCell_of_not_missing _ h⟩
  | writeKs c v | writeDb c v | writeTx c v => exact ⟨_, accessCell_of_not_missing _ h⟩
  | reset => exact ⟨_, access_reset⟩

end

theorem execAt_next (p : Params) (i : Instr) (s : State) : ∃ t, execAt p i s = .next t := ⟨_, rfl⟩

theorem exec_next (i : Instr) (s : State) : ∃ t, exec i s = .next t := ⟨_, exec_eq_commandAt i s⟩

end Sys2Proof.Machine
end

section
/-! SUPPORT. Register writes: the configuration registers and their numbers, a read after a write, and what a
configuration write leaves unchanged (10_state.md R21, R34). -/

namespace Sys2Proof.Machine

/-- The configuration registers at the sizes `p` (10_state.md R34). -/
inductive ConfigReg (p : Params) : Reg → Prop where
  | conv : ConfigReg p .conv
  | degree : ConfigReg p .degree
  | ntap : ConfigReg p .ntap
  | seed : ConfigReg p .seed
  | tap (k : Nat) (hk : k < p.tmax) : ConfigReg p (.tap k)

theorem configReg_of_isConfigNumber {p : Params} {r : Nat} (h : IsConfigNumber p r) :
    ∃ x, regOfNumber p r = some x ∧ ConfigReg p x := by
  obtain ⟨hlo, hhi⟩ | ⟨hlo, hhi⟩ := h
  · obtain rfl | rfl | rfl | rfl : r = 3 ∨ r = 4 ∨ r = 5 ∨ r = 6 := by omega
    · exact ⟨_, rfl, .conv⟩
    · exact ⟨_, rfl, .degree⟩
    · exact ⟨_, rfl, .ntap⟩
    · exact ⟨_, rfl, .seed⟩
  · refine ⟨.tap (r - 16), ?_, .tap _ (by omega)⟩
    rw [regOfNumber, if_neg (by omega), if_pos hhi]

theorem readReg_pending (s : State) (rest : List Access) (x : Reg) :
    readReg { s with pending := rest } x = readReg s x := by
  cases x <;> rfl

/-- A write leaves every other register as it was, `STATUS` apart, whose `RUN` it may close. -/
theorem readReg_writeReg_of_ne (v : Word) (s : State) {x y : Reg} (hxy : y ≠ x) (hy : y ≠ .status) :
    readReg (writeReg v s x) y = readReg s y := by
  cases x with
  | cmd | status | errinfo | state | period | maxper | cls => rfl
  | conv | degree | ntap | seed | len | kslen | dblen | txlen => cases y <;> simp_all [writeReg, readReg]
  | tap k =>
    cases y with
    | tap j =>
      have hkj : k ≠ j := fun h => hxy (congrArg Reg.tap h.symm)
      simp [writeReg, readReg, List.getD_eq_getElem?_getD, List.getElem?_set_ne hkj]
    | status => exact absurd rfl hy
    | _ => rfl

section
variable {p : Params} {x : Reg} (hx : ConfigReg p x) (v : Word) (s : State)
include hx

theorem ConfigReg.writeReg_run : (writeReg v s x).run = false := by
  cases hx <;> rfl

theorem ConfigReg.readReg_writeReg_same (hlen : s.tap.length = p.tmax) : readReg (writeReg v s x) x = v := by
  cases hx with
  | tap k hk =>
    have hset : (s.tap.set k v)[k]? = some v := List.getElem?_set_self (hlen ▸ hk)
    simp [writeReg, readReg, List.getD_eq_getElem?_getD, hset]
  | _ => rfl

/-- A configuration write touches `RUN` and the configuration, nothing else. -/
theorem ConfigReg.writeReg_frame :
    writeReg v s x = { s with
      run := false
      conv := (writeReg v s x).conv
      degree := (writeReg v s x).degree
      ntap := (writeReg v s x).ntap
      seed := (writeReg v s x).seed
      tap := (writeReg v s x).tap } := by
  cases hx <;> rfl

end

/-- `STEP` with no run open (40_lfsr_engine.md R102). -/
theorem exec_step_of_run_false {s : State} (h : s.run = false) :
    exec .step s = .next { s with err := .invalidConfig, errinfo := 0x06000000#32 } := by
  obtain ⟨_, hraise⟩ | ⟨hopen, _⟩ | ⟨hopen, _⟩ := cmdStep_cases Config.params s
  · exact congrArg Host.Outcome.next hraise
  · simp [h] at hopen
  · simp [h] at hopen

end Sys2Proof.Machine
end

section
/-! PROOFS. The statements about the host's port and the step (10_state.md). -/

namespace Sys2Proof.Machine

/-- Settles O44: a configuration number names a `ConfigReg`, whose write stores, closes the run and frames the rest. -/
theorem configurationWriteClosesTheRun : Obligations.ConfigurationWriteClosesTheRun := by
  intro s r v rest hpending hnum hlen
  obtain ⟨x, hreg, hx⟩ := configReg_of_isConfigNumber hnum
  have hr : r ≠ 0 := by
    obtain h | h := hnum <;> omega
  have hrun := hx.writeReg_run v { s with pending := rest }
  refine ⟨writeReg v { s with pending := rest } x, ?_, hrun, ?_, ?_, hx.writeReg_frame v _,
    exec_step_of_run_false hrun⟩
  · rw [step_access s _ rest hpending, access_writeReg v hr, accessReg_of_some _ hreg]
  · intro y hy
    obtain rfl : x = y := Option.some.inj (hreg.symm.trans hy)
    exact hx.readReg_writeReg_same v _ hlen
  · intro y hy hstatus
    have hyx : y ≠ x := fun h => hy (h ▸ hreg)
    exact (readReg_writeReg_of_ne v _ hyx hstatus).trans (readReg_pending s rest y)

/-- Settles O48: every command answers a next state, so only a missing place is refused. -/
theorem onlyMissingPlacesAreRefused : Obligations.OnlyMissingPlacesAreRefused := by
  intro s a rest hpending
  rw [step_access s a rest hpending]
  exact ⟨access_of_missing, access_of_not_missing exec_next⟩

/-- Settles O57: the laws of `access`, at the sizes `p` and the meanings `execAt p`. -/
theorem stepAtAllSizes : Obligations.StepAtAllSizes := by
  intro p s a rest hpending
  rw [stepAt_access p s a rest hpending]
  refine ⟨access_of_missing, access_of_not_missing (execAt_next p), ?_, ?_, ?_⟩
  · rintro w i rfl hdecode
    rw [access_writeCmd, command_of_decode hdecode]
  · rintro w rfl hillegal
    rw [access_writeCmd, command_of_illegal hillegal]
    rfl
  · rintro rfl
    rw [access_reset]
    rfl

/-- Settles O4: a write to `CMD` is `command`; a read of register 0 answers what `readReg` gives for `CMD`. -/
theorem stepRunsTheDecodedCommand : Obligations.StepRunsTheDecodedCommand := by
  constructor
  · intro s w i rest hpending hdecode
    rw [step_access s _ rest hpending, access_writeCmd, command_of_decode hdecode]
  · intro s rest hpending
    have hcmd : regOfNumber Config.params 0 = some .cmd := rfl
    rw [step_access s _ rest hpending, access_readReg_of_some hcmd]
    rfl

end Sys2Proof.Machine
end

section
/-! SUPPORT. Two runs side by side, from states that hold the same registers and different buffers: what each operation
of a command does to the cells in which they agree (20_memory.md R50, R54). Every command is shown to keep the two
alike, by one lemma per operation it ends in and one per check it makes. -/

namespace Sys2Proof.Machine

section
variable {w : Nat} {m m' t t' : Memory w} {n k : Nat}

/-- A buffer held `m` in one run and `m'` in the other; now it holds `t` and `t'`, and the cells below the length `n`
agree, and so does every cell that agreed before. -/
def Memory.StayEqual (m m' t t' : Memory w) (n : Nat) : Prop :=
  ∀ a, a < n ∨ m'.read a = m.read a → t'.read a = t.read a

theorem Memory.stayEqual_refl (h : ∀ a < n, m'.read a = m.read a) : Memory.StayEqual m m' m m' n :=
  fun a ha => ha.elim (h a) id

theorem Memory.StayEqual.shorten (h : Memory.StayEqual m m' t t' n) (hk : k ≤ n) : Memory.StayEqual m m' t t' k :=
  fun a ha => h a (ha.imp_left (fun hak => Nat.lt_of_lt_of_le hak hk))

/-- One write to both, from inside the sequence, makes the two agree up to its own end. -/
theorem Memory.StayEqual.write (h : Memory.StayEqual m m' t t' n) {a : Nat} (vs : List (BitVec w)) (ha : a ≤ n)
    (hk : k ≤ a + vs.length) : Memory.StayEqual m m' (t.write a vs) (t'.write a vs) k := by
  intro x hx
  rw [Memory.read_write, Memory.read_write]
  split
  case isTrue => rfl
  case isFalse hout => exact h x (hx.imp_left (fun hxk => by omega))

theorem Memory.readSeq_congr (h : ∀ a < n, m'.read a = m.read a) : m'.readSeq 0 n = m.readSeq 0 n := by
  apply List.ext_getElem?
  intro i
  rw [Memory.readSeq_getElem?, Memory.readSeq_getElem?]
  split
  case isTrue hi => rw [Nat.zero_add, h i hi]
  case isFalse => rfl

end

/-- The state with other contents of the three buffers. -/
def State.withBuffers (s : State) (ks db : Memory 1) (tx : Memory 32) : State := { s with ks := ks, db := db, tx := tx }

/-- Of two runs from `s` and `s'`, now at `t` and `t'`: the registers agree, the sequences agree, and every cell agrees
that agreed before. -/
structure RunsAgree (s s' t t' : State) : Prop where
  registers : t' = t.withBuffers t'.ks t'.db t'.tx
  ks : Memory.StayEqual s.ks s'.ks t.ks t'.ks t.kslen.toNat
  db : Memory.StayEqual s.db s'.db t.db t'.db t.dblen.toNat
  tx : Memory.StayEqual s.tx s'.tx t.tx t'.tx t.txlen.toNat

theorem xorTransform_length {data key bits : List Bit} (h : xorTransform data key = .ok bits) :
    bits.length = data.length := by
  obtain ⟨_, herror⟩ | ⟨hlen, hok⟩ := xorTransform_cases data key
  · simp [herror] at h
  · obtain rfl := Except.ok.inj (hok.symm.trans h)
    simp [hlen]

section
variable {s : State} {ks db : Memory 1} {tx : Memory 32}
  (h : RunsAgree s (s.withBuffers ks db tx) s (s.withBuffers ks db tx))
include h

theorem RunsAgree.ksSeq_eq : ksSeq (s.withBuffers ks db tx) = ksSeq s :=
  Memory.readSeq_congr (fun a ha => h.ks a (.inl ha))

theorem RunsAgree.dbSeq_eq : dbSeq (s.withBuffers ks db tx) = dbSeq s :=
  Memory.readSeq_congr (fun a ha => h.db a (.inl ha))

theorem RunsAgree.txSeq_eq : txSeq (s.withBuffers ks db tx) = txSeq s :=
  Memory.readSeq_congr (fun a ha => h.tx a (.inl ha))

end

/-- From two states that agree below the lengths, `f` leads to two that agree there, and wherever they agreed before
(20_memory.md R54). -/
def IgnoresCellsBeyond (f : State → State) : Prop :=
  ∀ ⦃s : State⦄ ⦃ks db : Memory 1⦄ ⦃tx : Memory 32⦄,
    RunsAgree s (s.withBuffers ks db tx) s (s.withBuffers ks db tx) →
      RunsAgree s (s.withBuffers ks db tx) (f s) (f (s.withBuffers ks db tx))

theorem raise_ignoresCellsBeyond (f : Failure) : IgnoresCellsBeyond (raise f) :=
  fun _ _ _ _ h => ⟨rfl, h.ks, h.db, h.tx⟩

/-- Both runs make the same check: both raise the error, or both go on. -/
theorem RunsAgree.check {s u u' : State} {ks db : Memory 1} {tx : Memory 32} {c : Prop} [Decidable c] {f : Failure}
    (h : RunsAgree s (s.withBuffers ks db tx) s (s.withBuffers ks db tx))
    (hu : RunsAgree s (s.withBuffers ks db tx) u u') :
    RunsAgree s (s.withBuffers ks db tx) (if c then raise f s else u)
      (if c then raise f (s.withBuffers ks db tx) else u') := by
  by_cases hc : c
  · simpa only [if_pos hc] using raise_ignoresCellsBeyond f h
  · simpa only [if_neg hc] using hu

theorem concludeDb_ignoresCellsBeyond (r : Except Failure (List Bit)) : IgnoresCellsBeyond (concludeDb r) := by
  intro s ks db tx h
  cases r with
  | error f => exact raise_ignoresCellsBeyond f h
  | ok bits =>
    have hlen : (BitVec.ofNat 32 bits.length).toNat ≤ 0 + bits.length := by
      simpa using Nat.mod_le _ _
    exact ⟨rfl, h.ks, h.db.write bits (Nat.zero_le _) hlen, h.tx⟩

theorem concludeTx_ignoresCellsBeyond (r : Except Failure (List Word)) : IgnoresCellsBeyond (concludeTx r) := by
  intro s ks db tx h
  cases r with
  | error f => exact raise_ignoresCellsBeyond f h
  | ok text =>
    have hlen : (BitVec.ofNat 32 text.length).toNat ≤ 0 + text.length := by
      simpa using Nat.mod_le _ _
    exact ⟨rfl, h.ks, h.db, h.tx.write text (Nat.zero_le _) hlen⟩

/-! The commands. Each proof walks the two runs through the definition in step: the conditions read registers and
sequences, so the branches are the same, and in each branch the same values are written at the same cells. -/

section
variable (p : Params)

theorem cmdInit_ignoresCellsBeyond : IgnoresCellsBeyond (cmdInit p) := by
  intro s ks db tx h
  have hv : validate p (s.withBuffers ks db tx) = validate p s := rfl
  unfold cmdInit
  rw [hv]
  cases validate p s with
  | some f => exact raise_ignoresCellsBeyond f h
  | none => exact ⟨rfl, h.ks.shorten (Nat.zero_le _), h.db, h.tx⟩

theorem cmdStep_ignoresCellsBeyond : IgnoresCellsBeyond (cmdStep p) := by
  intro s ks db tx h
  have hlen : (s.kslen + 1#32).toNat ≤ s.kslen.toNat + 1 := by
    rw [BitVec.toNat_add]
    exact Nat.mod_le _ _
  unfold cmdStep
  exact h.check (h.check ⟨rfl, h.ks.write [_] (Nat.le_refl _) hlen, h.db, h.tx⟩)

theorem cmdGen_ignoresCellsBeyond : IgnoresCellsBeyond (cmdGen p) := by
  intro s ks db tx h
  have hv : validate p (s.withBuffers ks db tx) = validate p s := rfl
  have hlen : s.len.toNat ≤ 0 + ((configOf s).runFrom s.len.toNat s.seed).2.length := by
    rw [runFrom_length, Nat.zero_add]
  unfold cmdGen
  rw [hv]
  cases validate p s with
  | some f => exact raise_ignoresCellsBeyond f h
  | none => exact h.check ⟨rfl, h.ks.write _ (Nat.zero_le _) hlen, h.db, h.tx⟩

theorem cmdPeriod_ignoresCellsBeyond : IgnoresCellsBeyond (cmdPeriod p) := by
  intro s ks db tx h
  unfold cmdPeriod
  rw [h.ksSeq_eq]
  exact h.check (h.check ⟨rfl, h.ks, h.db, h.tx⟩)

theorem cmdClassify_ignoresCellsBeyond (strategy : Strategy) : IgnoresCellsBeyond (cmdClassify strategy p) := by
  intro s ks db tx h
  unfold cmdClassify
  rw [h.ksSeq_eq]
  exact h.check (h.check (h.check ⟨rfl, h.ks, h.db, h.tx⟩))

theorem cmdT2b_ignoresCellsBeyond : IgnoresCellsBeyond (cmdT2b p) := by
  intro s ks db tx h
  unfold cmdT2b
  rw [h.txSeq_eq]
  exact h.check (concludeDb_ignoresCellsBeyond _ h)

theorem cmdB2t_ignoresCellsBeyond : IgnoresCellsBeyond (cmdB2t p) := by
  intro s ks db tx h
  unfold cmdB2t
  rw [h.dbSeq_eq]
  exact h.check (concludeTx_ignoresCellsBeyond _ h)

theorem cmdXor_ignoresCellsBeyond : IgnoresCellsBeyond (cmdXor p) := by
  intro s ks db tx h
  unfold cmdXor
  rw [h.dbSeq_eq, h.ksSeq_eq]
  refine h.check (h.check ?_)
  cases hxor : xorTransform (dbSeq s) (ksSeq s) with
  | error f => exact raise_ignoresCellsBeyond f h
  | ok bits =>
    have hlen : s.dblen.toNat ≤ 0 + bits.length := by
      rw [xorTransform_length hxor, dbSeq_length, Nat.zero_add]
    exact ⟨rfl, h.ks, h.db.write bits (Nat.zero_le _) hlen, h.tx⟩

theorem cmdEnc_ignoresCellsBeyond : IgnoresCellsBeyond (cmdEnc p) := by
  intro s ks db tx h
  unfold cmdEnc
  rw [h.txSeq_eq, h.ksSeq_eq]
  exact h.check (h.check (concludeDb_ignoresCellsBeyond _ h))

theorem cmdDec_ignoresCellsBeyond : IgnoresCellsBeyond (cmdDec p) := by
  intro s ks db tx h
  unfold cmdDec
  rw [h.dbSeq_eq, h.ksSeq_eq]
  exact h.check (h.check (concludeTx_ignoresCellsBeyond _ h))

theorem commandAt_ignoresCellsBeyond (i : Instr) : IgnoresCellsBeyond (commandAt p i) := by
  cases i with
  | init => exact cmdInit_ignoresCellsBeyond p
  | step => exact cmdStep_ignoresCellsBeyond p
  | gen => exact cmdGen_ignoresCellsBeyond p
  | period => exact cmdPeriod_ignoresCellsBeyond p
  | classifyExact => exact cmdClassify_ignoresCellsBeyond p .exact
  | classifyTwoval => exact cmdClassify_ignoresCellsBeyond p .twoval
  | t2b => exact cmdT2b_ignoresCellsBeyond p
  | b2t => exact cmdB2t_ignoresCellsBeyond p
  | xor => exact cmdXor_ignoresCellsBeyond p
  | enc => exact cmdEnc_ignoresCellsBeyond p
  | dec => exact cmdDec_ignoresCellsBeyond p

end

end Sys2Proof.Machine
end

section
/-! PROOFS. The statement about the buffers' lengths (20_memory.md). -/

namespace Sys2Proof.Machine

/-- Settles O42: two runs that agree below the lengths still agree after a command. -/
theorem cellsBeyondTheLengthDoNotInfluence : Obligations.CellsBeyondTheLengthDoNotInfluence := by
  intro i s ks' db' tx' hks hdb htx
  have hbefore : RunsAgree s (s.withBuffers ks' db' tx') s (s.withBuffers ks' db' tx') :=
    ⟨rfl, Memory.stayEqual_refl hks, Memory.stayEqual_refl hdb, Memory.stayEqual_refl htx⟩
  obtain ⟨hregisters, hks', hdb', htx'⟩ := commandAt_ignoresCellsBeyond Config.params i hbefore
  exact ⟨_, _, exec_eq_commandAt i s, exec_eq_commandAt i _, hregisters, hks', hdb', htx'⟩

end Sys2Proof.Machine
end

section
/-! SUPPORT. The command words: a word is the word of its fields (30_encoding.md R75), the words that decode are those
of the commands (R86), and the others are illegal in one of four ways (R80). -/

namespace Sys2Proof

/-- The law of each command in `Laws/PerInstr.lean`, for every command. -/
theorem encodingStatement (i : Instr) : Laws.Encoding.Statement i := by
  cases i with
  | init => exact Laws.Encoding.init
  | step => exact Laws.Encoding.step
  | gen => exact Laws.Encoding.gen
  | period => exact Laws.Encoding.period
  | classifyExact => exact Laws.Encoding.classifyExact
  | classifyTwoval => exact Laws.Encoding.classifyTwoval
  | t2b => exact Laws.Encoding.t2b
  | b2t => exact Laws.Encoding.b2t
  | xor => exact Laws.Encoding.xor
  | enc => exact Laws.Encoding.enc
  | dec => exact Laws.Encoding.dec

theorem Instr.fields_wf (i : Instr) : i.fields.wf = true := (encodingStatement i).left

theorem decode_encode (i : Instr) : decode (encode i) = .ok i := (encodingStatement i).right

theorem joinWord_splitWord (w : Word) : joinWord (splitWord w) = w := by
  have htop : w.extractLsb' 16 16 ++ w.extractLsb' 8 8 = w.extractLsb' 8 24 :=
    BitVec.extractLsb'_append_extractLsb'_eq_extractLsb' rfl
  have hall : w.extractLsb' 8 24 ++ w.extractLsb' 0 8 = w.extractLsb' 0 32 :=
    BitVec.extractLsb'_append_extractLsb'_eq_extractLsb' rfl
  calc joinWord (splitWord w)
    _ = (w.extractLsb' 16 16 ++ w.extractLsb' 8 8) ++ w.extractLsb' 0 8 := rfl
    _ = w.extractLsb' 0 32 := by rw [htop, hall]
    _ = w := BitVec.extractLsb'_eq_self

/-! Decoding. -/

section
variable {opc : BitVec 8} {f : CommandFields} {i : Instr} {w : Word}

/-- Every branch that answers a command has tested for that command's operation code. -/
theorem fields_of_decodeOpcode (h : decodeOpcode opc = .ok i) : { opc := opc, arg := 0#8, rsv := 0#16 } = i.fields := by
  unfold decodeOpcode at h
  split_ifs at h <;> cases h <;> subst opc <;> rfl

theorem decodeOpcode_of_mem (h : opc ∈ formatNCodes) : ∃ i, decodeOpcode opc = .ok i := by
  simp only [formatNCodes, List.mem_cons, List.not_mem_nil, or_false] at h
  obtain rfl | rfl | rfl | rfl | rfl | rfl | rfl | rfl | rfl := h
  exacts [⟨.init, rfl⟩, ⟨.step, rfl⟩, ⟨.gen, rfl⟩, ⟨.period, rfl⟩, ⟨.t2b, rfl⟩, ⟨.b2t, rfl⟩, ⟨.xor, rfl⟩, ⟨.enc, rfl⟩,
    ⟨.dec, rfl⟩]

theorem fields_of_decodeFields (h : decodeFields f = .ok i) : f = i.fields := by
  obtain ⟨opc, arg, rsv⟩ := f
  unfold decodeFields at h
  split_ifs at h with hrsv hexact htwoval harg
  · obtain ⟨rfl, rfl⟩ := hexact
    obtain rfl := not_not.mp hrsv
    cases h
    rfl
  · obtain ⟨rfl, rfl⟩ := htwoval
    obtain rfl := not_not.mp hrsv
    cases h
    rfl
  · obtain rfl := not_not.mp hrsv
    obtain rfl := not_not.mp harg
    exact fields_of_decodeOpcode h

theorem decodeFields_of_wf (h : f.wf = true) : ∃ i, decodeFields f = .ok i := by
  obtain ⟨opc, arg, rsv⟩ := f
  simp only [CommandFields.wf, CommandFields.reservedZero, CommandFields.opcodeListed, CommandFields.selectorLegal,
    Bool.and_eq_true, Bool.or_eq_true, beq_iff_eq, List.contains_iff_mem] at h
  obtain ⟨⟨rfl, hlisted⟩, hselector⟩ := h
  by_cases hopc : opc = formatACode
  · subst hopc
    obtain rfl | rfl : arg = 0#8 ∨ arg = 1#8 := by simpa using hselector
    · exact ⟨.classifyExact, rfl⟩
    · exact ⟨.classifyTwoval, rfl⟩
  · obtain rfl : arg = 0#8 := by simpa [hopc] using hselector
    simpa [decodeFields, hopc] using decodeOpcode_of_mem (hlisted.resolve_left hopc)

/-- No bit of a word is ignored (30_encoding.md R86). -/
theorem eq_encode_of_decode (h : decode w = .ok i) : w = encode i := by
  rw [encode, ← fields_of_decodeFields h, joinWord_splitWord]

theorem decode_error_of_ne_encode (h : ∀ i, w ≠ encode i) : ∃ e, decode w = .error e := by
  cases hdecode : decode w with
  | ok i => exact absurd (eq_encode_of_decode hdecode) (h i)
  | error e => exact ⟨e, rfl⟩

theorem exists_decode_iff : (∃ i, decode w = .ok i) ↔ (splitWord w).wf = true := by
  constructor
  · rintro ⟨i, hi⟩
    exact fields_of_decodeFields hi ▸ i.fields_wf
  · exact decodeFields_of_wf

end

/-! The four kinds of illegal word, in the numbers of its fields. -/

/-- The word is illegal in one of the four ways of 30_encoding.md R80. -/
def IsIllegalWord (w : Word) : Prop :=
  w.toNat / 2 ^ 16 ≠ 0 ∨
    w.toNat % 256 ∉ [0x01, 0x02, 0x03, 0x10, 0x11, 0x20, 0x21, 0x22, 0x23, 0x24] ∨
    (w.toNat % 256 ≠ 0x11 ∧ w.toNat / 256 % 256 ≠ 0) ∨
    (w.toNat % 256 = 0x11 ∧ 2 ≤ w.toNat / 256 % 256)

section
variable (w : Word)

theorem splitWord_opc_toNat : (splitWord w).opc.toNat = w.toNat % 256 := by
  simp [splitWord]

theorem splitWord_arg_toNat : (splitWord w).arg.toNat = w.toNat / 256 % 256 := by
  simp [splitWord, Nat.shiftRight_eq_div_pow]

theorem splitWord_rsv_toNat : (splitWord w).rsv.toNat = w.toNat / 2 ^ 16 := by
  have hlt : w.toNat / 2 ^ 16 < 2 ^ 16 := by
    have := w.isLt
    omega
  rw [splitWord, BitVec.extractLsb'_toNat, Nat.shiftRight_eq_div_pow, Nat.mod_eq_of_lt hlt]

theorem reservedZero_splitWord : (splitWord w).reservedZero = true ↔ w.toNat / 2 ^ 16 = 0 := by
  rw [← splitWord_rsv_toNat, CommandFields.reservedZero, beq_iff_eq, ← BitVec.toNat_inj]
  rfl

theorem opcodeListed_splitWord : (splitWord w).opcodeListed = true ↔
    w.toNat % 256 ∈ [0x01, 0x02, 0x03, 0x10, 0x11, 0x20, 0x21, 0x22, 0x23, 0x24] := by
  rw [← splitWord_opc_toNat]
  simp only [CommandFields.opcodeListed, formatACode, formatNCodes, Bool.or_eq_true, beq_iff_eq, List.contains_iff_mem,
    List.mem_cons, List.not_mem_nil, or_false, ← BitVec.toNat_inj, BitVec.toNat_ofNat]
  omega

theorem selectorLegal_splitWord : (splitWord w).selectorLegal = true ↔
    ¬ ((w.toNat % 256 ≠ 0x11 ∧ w.toNat / 256 % 256 ≠ 0) ∨ (w.toNat % 256 = 0x11 ∧ 2 ≤ w.toNat / 256 % 256)) := by
  rw [← splitWord_opc_toNat, ← splitWord_arg_toNat, CommandFields.selectorLegal]
  split_ifs with hopc <;>
    simp only [formatACode, Bool.or_eq_true, beq_iff_eq, ← BitVec.toNat_inj, BitVec.toNat_ofNat] at hopc ⊢ <;>
    omega

theorem not_isIllegalWord_iff : ¬ IsIllegalWord w ↔ ∃ i, decode w = .ok i := by
  rw [exists_decode_iff, CommandFields.wf, Bool.and_eq_true, Bool.and_eq_true, reservedZero_splitWord,
    opcodeListed_splitWord, selectorLegal_splitWord, IsIllegalWord, not_or, not_or, not_not, not_not, and_assoc]

end

end Sys2Proof
end

section
/-! PROOFS. The statements about command words (30_encoding.md). -/

namespace Sys2Proof.Machine

/-- Settles O2: decoding inverts encoding, and a word that decodes is the word joined from its command's fields. -/
theorem decodeAndEncodeAgree : Obligations.DecodeAndEncodeAgree :=
  ⟨fun i _ => decode_encode i, fun _ _ => eq_encode_of_decode, fun _ => decode_error_of_ne_encode⟩

/-- Settles O3: a write to `CMD` is `command`, and the words that decode are those not illegal by R80. -/
theorem illegalWordRaisesIllegalCommand : Obligations.IllegalWordRaisesIllegalCommand := by
  intro s w rest hpending
  rw [step_access s _ rest hpending, access_writeCmd]
  refine ⟨fun hillegal : IsIllegalWord w => ?_, fun hlegal : ¬ IsIllegalWord w => ?_⟩
  · have hdecode : ∀ i, decode w ≠ .ok i := fun i hi => (not_isIllegalWord_iff w).mpr ⟨i, hi⟩ hillegal
    rw [command_of_illegal hdecode]
    rfl
  · obtain ⟨i, hi⟩ := (not_isIllegalWord_iff w).mp hlegal
    exact ⟨i, hi, command_of_decode hi⟩

end Sys2Proof.Machine
end

section
/-! SUPPORT. Validation: the first check that fails (40_lfsr_engine.md R92), a valid configuration as the one that fails
none (R91), and what `INIT` and `GEN` do with either. -/

namespace Sys2Proof.Machine

theorem conv_toNat_le_one_iff (v : Word) : v.toNat ≤ 1 ↔ v = 0#32 ∨ v = 1#32 := by
  bv_omega

/-- The index of the first tap out of the range of its convention (40_lfsr_engine.md R92). -/
def firstIllegalTap (s : State) : Option Nat :=
  (tapsOf s).findIdx? (fun t => !tapLegal (conventionOf s.conv) s.degree.toNat t)

theorem tapLegal_conventionOf_iff {v : Word} (hconv : v.toNat ≤ 1) (n t : Nat) :
    tapLegal (conventionOf v) n t = true ↔ TapInRange v n t := by
  obtain rfl | rfl := (conv_toNat_le_one_iff v).mp hconv
  · simp [tapLegal, conventionOf, TapInRange]
  · simp [tapLegal, conventionOf, TapInRange]

theorem ushiftRight_ne_zero_of_getLsbD {n b : Nat} {v : Word} (hle : n ≤ b) (hset : v.getLsbD b = true) :
    v >>> n ≠ 0#32 := by
  intro hzero
  have hbit : (v >>> n).getLsbD (b - n) = true := by
    rw [BitVec.getLsbD_ushiftRight, Nat.add_sub_of_le hle, hset]
  simp [hzero] at hbit

theorem leastSeedBit_eq {n b : Nat} {seed : Word} (hle : n ≤ b) (hset : seed.getLsbD b = true)
    (hleast : ∀ j, n ≤ j → j < b → seed.getLsbD j = false) : leastSeedBit n seed = b := by
  have hfind : (List.range 32).find? (fun i => decide (n ≤ i) && seed.getLsbD i) = some b := by
    refine List.find?_range_eq_some.mpr ⟨by simp [hle, hset], List.mem_range.mpr (BitVec.lt_of_getLsbD hset), ?_⟩
    intro j hj
    by_cases hnj : n ≤ j
    · simp [hleast j hnj hj]
    · simp [hnj]
  rw [leastSeedBit, hfind]
  rfl

section
variable {p : Params} {s : State}

theorem firstIllegalTap_eq_none_iff (hconv : s.conv.toNat ≤ 1) :
    firstIllegalTap s = none ↔ ∀ t ∈ tapsOf s, TapInRange s.conv s.degree.toNat t := by
  simp only [firstIllegalTap, List.findIdx?_eq_none_iff, Bool.not_eq_false', tapLegal_conventionOf_iff hconv]

theorem firstIllegalTap_eq_some {k t : Nat} (hconv : s.conv.toNat ≤ 1) (hk : (tapsOf s)[k]? = some t)
    (hillegal : ¬ TapInRange s.conv s.degree.toNat t)
    (hbefore : ∀ j < k, ∀ u, (tapsOf s)[j]? = some u → TapInRange s.conv s.degree.toNat u) :
    firstIllegalTap s = some k := by
  obtain ⟨hlt, rfl⟩ := List.getElem?_eq_some_iff.mp hk
  refine List.findIdx?_eq_some_iff_getElem.mpr ⟨hlt, ?_, fun j hj => ?_⟩
  · simpa [← tapLegal_conventionOf_iff hconv] using hillegal
  · have hlegal := hbefore j hj _ (List.getElem?_eq_getElem (Nat.lt_trans hj hlt))
    simpa [← tapLegal_conventionOf_iff hconv] using hlegal

/-! One equation of `validate` per check, in the order of 40_lfsr_engine.md R92. -/

theorem validate_of_conv (h : 1 < s.conv.toNat) : validate p s = some (invalidConfig 1 0) := if_pos h

section
variable (hconv : s.conv.toNat ≤ 1)
include hconv

theorem validate_of_degree (h : s.degree.toNat < 1 ∨ p.nmax < s.degree.toNat) :
    validate p s = some (invalidConfig 2 0) := by
  rw [validate, if_neg (by omega), if_pos h]

variable (hdegree : 1 ≤ s.degree.toNat ∧ s.degree.toNat ≤ p.nmax)
include hdegree

theorem validate_of_ntap (h : s.ntap.toNat < 1 ∨ p.tmax < s.ntap.toNat) :
    validate p s = some (invalidConfig 3 0) := by
  rw [validate, if_neg (by omega), if_neg (by omega), if_pos h]

variable (hntap : 1 ≤ s.ntap.toNat ∧ s.ntap.toNat ≤ p.tmax)
include hntap

theorem validate_of_tap {k : Nat} (h : firstIllegalTap s = some k) : validate p s = some (invalidConfig 4 k) := by
  rw [firstIllegalTap] at h
  rw [validate, if_neg (by omega), if_neg (by omega), if_neg (by omega), h]

variable (htaps : firstIllegalTap s = none)
include htaps

theorem validate_of_seed (h : s.seed >>> s.degree.toNat ≠ 0#32) :
    validate p s = some (invalidConfig 5 (leastSeedBit s.degree.toNat s.seed)) := by
  rw [firstIllegalTap] at htaps
  rw [validate, if_neg (by omega), if_neg (by omega), if_neg (by omega), htaps]
  exact if_pos h

theorem validate_of_checks (h : s.seed >>> s.degree.toNat = 0#32) : validate p s = none := by
  rw [firstIllegalTap] at htaps
  rw [validate, if_neg (by omega), if_neg (by omega), if_neg (by omega), htaps]
  exact if_neg (not_not.mpr h)

end

/-- The conditions (a) to (e) are the checks of `validate`. -/
theorem configValid_iff_checks : ConfigValid p s ↔
    s.conv.toNat ≤ 1 ∧ (1 ≤ s.degree.toNat ∧ s.degree.toNat ≤ p.nmax) ∧
      (1 ≤ s.ntap.toNat ∧ s.ntap.toNat ≤ p.tmax) ∧ firstIllegalTap s = none ∧
      s.seed >>> s.degree.toNat = 0#32 := by
  rw [ConfigValid, ← conv_toNat_le_one_iff]
  exact and_congr_right fun hconv => by rw [firstIllegalTap_eq_none_iff hconv]

theorem validate_eq_none_of_configValid (h : ConfigValid p s) : validate p s = none := by
  obtain ⟨hconv, hdegree, hntap, htaps, hseed⟩ := configValid_iff_checks.mp h
  exact validate_of_checks hconv hdegree hntap htaps hseed

theorem configValid_of_validate_eq_none (h : validate p s = none) : ConfigValid p s := by
  have hconv : s.conv.toNat ≤ 1 := by
    by_contra hbad
    simp [validate_of_conv (Nat.lt_of_not_le hbad)] at h
  have hdegree : 1 ≤ s.degree.toNat ∧ s.degree.toNat ≤ p.nmax := by
    by_contra hbad
    simp [validate_of_degree (p := p) hconv (by omega)] at h
  have hntap : 1 ≤ s.ntap.toNat ∧ s.ntap.toNat ≤ p.tmax := by
    by_contra hbad
    simp [validate_of_ntap hconv hdegree (by omega)] at h
  have htaps : firstIllegalTap s = none := by
    cases htap : firstIllegalTap s with
    | none => rfl
    | some k => simp [validate_of_tap hconv hdegree hntap htap] at h
  have hseed : s.seed >>> s.degree.toNat = 0#32 := by
    by_contra hbad
    simp [validate_of_seed hconv hdegree hntap htaps hbad] at h
  exact configValid_iff_checks.mpr ⟨hconv, hdegree, hntap, htaps, hseed⟩

theorem exists_validate_of_not_configValid (h : ¬ ConfigValid p s) :
    ∃ info, validate p s = some { code := .invalidConfig, info := info } := by
  cases hvalidate : validate p s with
  | none => exact absurd (configValid_of_validate_eq_none hvalidate) h
  | some f =>
    refine ⟨f.info, congrArg some ?_⟩
    rw [← validate_code p s f hvalidate]

end

section
variable {i : Instr} {s : State}

/-- `INIT` and `GEN` raise what validation finds, and do nothing else. -/
theorem exec_of_validate_eq_some (hi : i = .init ∨ i = .gen) {f : Failure} (h : validate Config.params s = some f) :
    exec i s = .next (raise f s) := by
  obtain rfl | rfl := hi
  · obtain ⟨g, hg, hraise⟩ | ⟨hnone, _⟩ := cmdInit_cases Config.params s
    · obtain rfl : f = g := Option.some.inj (h.symm.trans hg)
      exact congrArg Host.Outcome.next hraise
    · simp [h] at hnone
  · obtain ⟨g, hg, hraise⟩ | ⟨hnone, _⟩ | ⟨hnone, _⟩ := cmdGen_cases Config.params s
    · obtain rfl : f = g := Option.some.inj (h.symm.trans hg)
      exact congrArg Host.Outcome.next hraise
    · simp [h] at hnone
    · simp [h] at hnone

theorem exec_of_not_configValid (hi : i = .init ∨ i = .gen) (h : ¬ ConfigValid Config.params s) :
    ∃ info, exec i s = .next { s with err := .invalidConfig, errinfo := info } := by
  obtain ⟨info, hinfo⟩ := exists_validate_of_not_configValid h
  exact ⟨info, exec_of_validate_eq_some hi hinfo⟩

theorem exec_init_of_configValid (h : ConfigValid Config.params s) :
    exec .init s = .next (done (openRun { s with lfsr := s.seed, kslen := 0#32 })) := by
  obtain ⟨f, hf, _⟩ | ⟨_, hdone⟩ := cmdInit_cases Config.params s
  · simp [validate_eq_none_of_configValid h] at hf
  · exact congrArg Host.Outcome.next hdone

end

end Sys2Proof.Machine
end

section
/-! SUPPORT. The two step rules: the feedback as a parity (40_lfsr_engine.md R95, R97, R99), the largest tap (R97), and
the sequence as the outputs of the states in turn (R100). -/

namespace Sys2Proof.Machine

theorem bit_toNat_eq_ite (b : Bit) : b.toNat = if b == 1#1 then 1 else 0 := by
  revert b
  decide

theorem bit_xor_toNat (a b : Bit) : (a ^^^ b).toNat = (a.toNat + b.toNat) % 2 := by
  revert a b
  decide

/-- The XOR of the bits read at the taps is the parity of the entries that read a 1. -/
theorem xorAll_map_toNat (taps : List Nat) (f : Nat → Bit) :
    (xorAll (taps.map f)).toNat = oddCount taps (fun t => f t == 1#1) := by
  induction taps with
  | nil => rfl
  | cons t taps ih =>
    calc (xorAll ((t :: taps).map f)).toNat
      _ = ((f t).toNat + (xorAll (taps.map f)).toNat) % 2 := bit_xor_toNat _ _
      _ = oddCount (t :: taps) (fun t => f t == 1#1) := by
        rw [ih, bit_toNat_eq_ite, oddCount, oddCount, List.countP_cons, Nat.add_mod_mod, Nat.add_comm]

theorem oddCount_lt_two (taps : List Nat) (readsOne : Nat → Bool) : oddCount taps readsOne < 2 :=
  Nat.mod_lt _ Nat.two_pos

theorem getD_beq_one (state : List Bit) (t : Nat) : (state.getD t 0#1 == 1#1) = (state[t]? == some 1#1) := by
  rw [List.getD_eq_getElem?_getD]
  cases state[t]? <;> rfl

theorem bitToWord_toNat (b : Bit) : (bitToWord b).toNat = b.toNat := BitVec.toNat_setWidth_of_le (by decide)

theorem bitAt_toNat (v : Word) (i : Nat) : (bitAt v i).toNat = (v.toNat.testBit i).toNat :=
  BitVec.toNat_ofBool _

theorem bitAt_beq_one (v : Word) (i : Nat) : (bitAt v i == 1#1) = v.toNat.testBit i := by
  rw [bitAt, BitVec.testBit_toNat]
  cases v.getLsbD i <;> rfl

theorem maxTap_mem {taps : List Nat} (h : taps ≠ []) : maxTap taps ∈ taps :=
  List.maximum_mem (List.foldr_max_of_ne_nil h).symm

theorem le_maxTap {taps : List Nat} {t : Nat} (h : t ∈ taps) : t ≤ maxTap taps :=
  List.le_max_of_le' 0 h (Nat.le_refl t)

theorem stepTopfb_output_toNat (taps : List Nat) (s : Word) : (stepTopfb taps s).2.toNat = s.toNat % 2 := by
  rw [stepTopfb, bitAt_toNat, Nat.testBit_zero]
  obtain h | h := Nat.mod_two_eq_zero_or_one s.toNat <;> simp [h]

/-- The formula of 40_lfsr_engine.md R97 on integers: nothing is cut off where the largest tap is at most 32. -/
theorem stepTopfb_state_toNat {taps : List Nat} (s : Word) (h : maxTap taps ≤ 32) :
    (stepTopfb taps s).1.toNat =
      (s.toNat >>> 1) ||| (oddCount taps (fun t => s.toNat.testBit (t - 1)) <<< (maxTap taps - 1)) := by
  have hfeedback : (xorAll (taps.map (fun t => bitAt s (t - 1)))).toNat =
      oddCount taps (fun t => s.toNat.testBit (t - 1)) := by
    simp only [xorAll_map_toNat, bitAt_beq_one]
  have hfits : oddCount taps (fun t => s.toNat.testBit (t - 1)) <<< (maxTap taps - 1) < 2 ^ 32 :=
    calc _
      _ < 2 ^ (1 + (maxTap taps - 1)) := Nat.shiftLeft_lt (oddCount_lt_two _ _)
      _ ≤ 2 ^ 32 := Nat.pow_le_pow_right Nat.two_pos (by omega)
  rw [stepTopfb, BitVec.toNat_or, BitVec.toNat_ushiftRight, BitVec.toNat_shiftLeft, bitToWord_toNat, hfeedback,
    Nat.mod_eq_of_lt hfits]

/-- A run emits one bit more by one step more at its end. -/
theorem runFrom_succ (c : LfsrConfig) (k : Nat) (s : Word) :
    c.runFrom (k + 1) s = ((c.step (c.runFrom k s).1).1, (c.runFrom k s).2 ++ [(c.step (c.runFrom k s).1).2]) := by
  induction k generalizing s with
  | zero => rfl
  | succ k ih => rw [LfsrConfig.runFrom, ih, LfsrConfig.runFrom, List.cons_append]

/-- From the seed, the state after `k` steps and the outputs of the `k` states before it. -/
theorem runFrom_seed (c : LfsrConfig) (k : Nat) :
    c.runFrom k c.seed = (c.stateAfter k, (List.range k).map (fun i => (c.step (c.stateAfter i)).2)) := by
  induction k with
  | zero => rfl
  | succ k ih =>
    rw [runFrom_succ, ih, List.range_succ, List.map_append]
    rfl

theorem runFrom_seed_eq_generate (c : LfsrConfig) (k : Nat) : c.runFrom k c.seed = (c.stateAfter k, c.generate k) := by
  rw [LfsrConfig.generate, runFrom_seed]

@[simp] theorem generate_length (c : LfsrConfig) (n : Nat) : (c.generate n).length = n := runFrom_length c n c.seed

theorem generate_getElem? (c : LfsrConfig) {n i : Nat} (h : i < n) :
    (c.generate n)[i]? = some (c.step (c.stateAfter i)).2 := by
  simp [LfsrConfig.generate, runFrom_seed, h]

theorem generate_getD (c : LfsrConfig) {n i : Nat} (h : i < n) (b : Bit) :
    (c.generate n).getD i b = (c.step (c.stateAfter i)).2 := by
  rw [List.getD_eq_getElem?_getD, generate_getElem? c h, Option.getD_some]

theorem generate_getLastD (c : LfsrConfig) {n : Nat} (h : 1 ≤ n) (b : Bit) :
    (c.generate n).getLastD b = (c.step (c.stateAfter (n - 1))).2 := by
  rw [List.getLastD_eq_getLast?, List.getLast?_eq_getElem?, generate_length, generate_getElem? c (by omega),
    Option.getD_some]

theorem read_write_generate_of_lt (m : Memory 1) (c : LfsrConfig) {n i : Nat} (h : i < n) :
    (m.write 0 (c.generate n)).read i = (c.step (c.stateAfter i)).2 := by
  rw [Memory.read_write, if_pos ⟨Nat.zero_le i, by simpa using h⟩, Nat.sub_zero, generate_getD c h]

theorem read_write_generate_of_ge (m : Memory 1) (c : LfsrConfig) {n i : Nat} (h : n ≤ i) :
    (m.write 0 (c.generate n)).read i = m.read i := by
  rw [Memory.read_write, generate_length, if_neg (by omega)]

end Sys2Proof.Machine
end

section
/-! SUPPORT. What `STEP` and `GEN` do on each of their paths (40_lfsr_engine.md R102, R103). -/

namespace Sys2Proof.Machine

variable {s : State}

theorem exec_step_of_open (hrun : s.run = true) (hfits : s.kslen.toNat < Config.params.lmax) :
    exec .step s = .next (done (setOut ((configOf s).step s.lfsr).2
      { s with
        ks := s.ks.write s.kslen.toNat [((configOf s).step s.lfsr).2]
        kslen := s.kslen + 1#32
        lfsr := ((configOf s).step s.lfsr).1 })) := by
  obtain ⟨hclosed, _⟩ | ⟨_, hfull, _⟩ | ⟨_, _, hdone⟩ := cmdStep_cases Config.params s
  · simp [hrun] at hclosed
  · omega
  · exact congrArg Host.Outcome.next hdone

theorem exec_step_of_full (hrun : s.run = true) (hfull : Config.params.lmax ≤ s.kslen.toNat) :
    exec .step s = .next (raise (capacityExceeded s.kslen) s) := by
  obtain ⟨hclosed, _⟩ | ⟨_, _, hraise⟩ | ⟨_, hfits, _⟩ := cmdStep_cases Config.params s
  · simp [hrun] at hclosed
  · exact congrArg Host.Outcome.next hraise
  · omega

theorem configOf_step_of_prepend (h : s.conv = 0#32) (v : Word) :
    (configOf s).step v = stepPrepend s.degree.toNat (tapsOf s) v := by
  simp [configOf, conventionOf, LfsrConfig.step, h]

theorem configOf_step_of_topfb (h : s.conv ≠ 0#32) (v : Word) : (configOf s).step v = stepTopfb (tapsOf s) v := by
  simp [configOf, conventionOf, LfsrConfig.step, h]

theorem exec_gen_of_long (h : ConfigValid Config.params s) (hlong : Config.params.lmax < s.len.toNat) :
    exec .gen s = .next (raise (capacityExceeded s.len) s) := by
  obtain ⟨f, hf, _⟩ | ⟨_, _, hraise⟩ | ⟨_, hfits, _⟩ := cmdGen_cases Config.params s
  · simp [validate_eq_none_of_configValid h] at hf
  · exact congrArg Host.Outcome.next hraise
  · omega

theorem exec_gen_of_fits (h : ConfigValid Config.params s) (hfits : s.len.toNat ≤ Config.params.lmax) :
    exec .gen s = .next (done (setOut (((configOf s).generate s.len.toNat).getLastD s.out) (openRun
      { s with
        ks := s.ks.write 0 ((configOf s).generate s.len.toNat)
        lfsr := (configOf s).stateAfter s.len.toNat
        kslen := s.len }))) := by
  have hrun : (configOf s).runFrom s.len.toNat s.seed =
      ((configOf s).stateAfter s.len.toNat, (configOf s).generate s.len.toNat) :=
    runFrom_seed_eq_generate (configOf s) s.len.toNat
  obtain ⟨f, hf, _⟩ | ⟨_, hlong, _⟩ | ⟨_, _, hdone⟩ := cmdGen_cases Config.params s
  · simp [validate_eq_none_of_configValid h] at hf
  · omega
  · rw [hrun] at hdone
    exact congrArg Host.Outcome.next hdone

end Sys2Proof.Machine
end

section
/-! PROOFS. The statements about the Engine (40_lfsr_engine.md). -/

namespace Sys2Proof.Machine

/-- Settles O7: each clause is one equation of `validate`, whose failure `INIT` and `GEN` raise. -/
theorem firstFailingCheckIsReported : Obligations.FirstFailingCheckIsReported := by
  intro i s hi
  refine ⟨fun hconv => ?_, fun hconv hdegree => ?_, fun hconv hlo hhi hntap => ?_,
    fun hconv hlo hhi hlo' hhi' => ⟨fun k t hk hillegal hbefore => ?_, fun htaps b hle hset hleast => ?_⟩⟩
  · exact exec_of_validate_eq_some hi (validate_of_conv hconv)
  · exact exec_of_validate_eq_some hi (validate_of_degree hconv hdegree)
  · exact exec_of_validate_eq_some hi (validate_of_ntap hconv ⟨hlo, hhi⟩ hntap)
  · have htap := firstIllegalTap_eq_some hconv hk hillegal hbefore
    exact exec_of_validate_eq_some hi (validate_of_tap hconv ⟨hlo, hhi⟩ ⟨hlo', hhi'⟩ htap)
  · have hseed : s.seed >>> s.degree.toNat ≠ 0#32 := ushiftRight_ne_zero_of_getLsbD hle hset
    have hnone := (firstIllegalTap_eq_none_iff hconv).mpr htaps
    rw [exec_of_validate_eq_some hi (validate_of_seed hconv ⟨hlo, hhi⟩ ⟨hlo', hhi'⟩ hnone hseed),
      leastSeedBit_eq hle hset hleast]
    rfl

/-- Settles O8: a valid configuration passes validation, another raises its failure. -/
theorem initOpensARun : Obligations.InitOpensARun :=
  fun _ => ⟨exec_init_of_configValid, exec_of_not_configValid (.inl rfl)⟩

/-- Settles O6: by the ends of `INIT` and `GEN`; `GEN` raises `InvalidConfig` for no other cause than validation. -/
theorem initAndGenValidate : Obligations.InitAndGenValidate := by
  intro s
  by_cases h : ConfigValid Config.params s
  · refine ⟨⟨_, exec_init_of_configValid h, iff_of_true rfl h, iff_of_false (by simp) (not_not.mpr h)⟩, ?_⟩
    by_cases hlong : Config.params.lmax < s.len.toNat
    · exact ⟨_, exec_gen_of_long h hlong, iff_of_false (by simp [capacityExceeded]) (not_not.mpr h)⟩
    · exact ⟨_, exec_gen_of_fits h (Nat.le_of_not_lt hlong), iff_of_false (by simp) (not_not.mpr h)⟩
  · obtain ⟨_, hinit⟩ := exec_of_not_configValid (.inl rfl) h
    obtain ⟨_, hgen⟩ := exec_of_not_configValid (.inr rfl) h
    exact ⟨⟨_, hinit, iff_of_false (by simp) h, iff_of_true rfl h⟩, _, hgen, iff_of_true rfl h⟩

/-- Settles O9: element by element. -/
theorem prependStepOnLists : Obligations.PrependStepOnLists := by
  intro taps state hne _
  have hpos : 0 < state.length := List.length_pos_iff.mpr hne
  refine ⟨?_, ?_, ⟨_, rfl, ?_⟩, fun i hi hlt => ?_⟩
  · simp only [stepList, List.length_cons, List.length_dropLast]
    omega
  · simp [stepList, List.getLastD_eq_getLast?, List.getLast?_eq_getElem?, hpos]
  · simp only [xorAll_map_toNat, getD_beq_one]
  · obtain ⟨j, rfl⟩ := Nat.exists_eq_add_of_le' hi
    simp only [stepList, List.getElem?_cons_succ, List.getElem?_dropLast, Nat.add_sub_cancel]
    rw [if_pos (by omega)]

/-- Settles O11: `maxTap` is the largest entry, and bit `maxTap - 1` of the sum is read off. -/
theorem topfbStepOnIntegers : Obligations.TopfbStepOnIntegers := by
  intro n taps s _ hn hne hrange _
  obtain ⟨hlo, hhi⟩ := hrange _ (maxTap_mem hne)
  have hstate := stepTopfb_state_toNat s (Nat.le_trans hhi hn)
  refine ⟨maxTap taps, maxTap_mem hne, fun t => le_maxTap, stepTopfb_output_toNat taps s, hstate, ?_⟩
  have hparity : ∀ k < 2, k.testBit 0 = (k == 1) := by decide
  rw [hstate, Nat.testBit_or, Nat.testBit_shiftRight, Nat.testBit_shiftLeft, Nat.add_sub_of_le hlo, Nat.sub_self,
    hparity _ (oddCount_lt_two _ _)]
  simp

/-- Settles O15: one bit is written behind the sequence, and `KSLEN` below the capacity does not wrap. -/
theorem stepAppendsOneBit : Obligations.StepAppendsOneBit := by
  intro s
  refine ⟨exec_step_of_run_false, exec_step_of_full, fun hrun hfits => ⟨_, exec_step_of_open hrun hfits,
    configOf_step_of_prepend (v := s.lfsr), configOf_step_of_topfb (v := s.lfsr), ?_, ?_, fun a ha => ?_, rfl⟩⟩
  · have hlt : s.kslen.toNat < 262144 := hfits
    simp only [done_kslen, setOut_kslen]
    bv_omega
  · simp [Memory.read_write]
  · have hout : ¬ (s.kslen.toNat ≤ a ∧ a < s.kslen.toNat + 1) := by omega
    exact (Memory.read_write _ _ _ _).trans (if_neg hout)

/-- Settles O16: the outputs of the states from the seed, in order. -/
theorem generateGivesTheRunsBits : Obligations.GenerateGivesTheRunsBits := by
  refine ⟨fun c length => ?_, fun s h => ?_⟩
  · exact ⟨generate_length c length, fun i hi => generate_getElem? c hi⟩
  · obtain ⟨info, hinfo⟩ := exec_of_not_configValid (.inr rfl) h
    exact ⟨_, hinfo, rfl⟩

/-- Settles O17: the cells from 0 hold what `generate` gives, and `OUT` the last of its bits. -/
theorem genWritesTheSequence : Obligations.GenWritesTheSequence := by
  intro s
  refine ⟨exec_of_not_configValid (.inr rfl), exec_gen_of_long, fun h hfits => ⟨_, exec_gen_of_fits h hfits, rfl,
    fun i => read_write_generate_of_lt s.ks _, fun a => read_write_generate_of_ge s.ks _, fun hzero => ?_,
    fun hpos => ?_, rfl⟩⟩
  · simp [hzero, LfsrConfig.generate, LfsrConfig.runFrom]
  · have hlast : s.len.toNat - 1 < s.len.toNat := by omega
    exact (generate_getLastD _ hpos _).trans (read_write_generate_of_lt s.ks _ hlast).symm

end Sys2Proof.Machine
end

section
/-! SUPPORT. The period detector: what its test of a candidate says, what its scan finds (41_period_classifier.md R110,
R111, R112), and the tags of `TWOVAL` by the values present (R117). -/

namespace Sys2Proof.Machine

variable {q : List Bit}

/-- No cell read by the test lies beyond the sequence: the remainder is at most the index. -/
theorem repeatsEvery_iff {p : Nat} :
    repeatsEvery q p = true ↔ ∀ i < q.length, p ≤ i → q[i]? = q[i % p]? := by
  simp only [repeatsEvery, List.all_eq_true, List.mem_range, Bool.or_eq_true, decide_eq_true_eq, beq_iff_eq]
  refine forall₂_congr fun i hi => ?_
  have hmod : i % p < q.length := Nat.lt_of_le_of_lt (Nat.mod_le i p) hi
  rw [← Nat.not_le, ← imp_iff_not_or]
  simp [hi, hmod]

theorem isPeriodOf_iff {p : Nat} : IsPeriodOf q p ↔ 1 ≤ p ∧ repeatsEvery q p = true := by
  rw [IsPeriodOf, repeatsEvery_iff]

theorem repeatsEvery_of_length_le {p : Nat} (h : q.length ≤ p) : repeatsEvery q p = true :=
  repeatsEvery_iff.mpr fun _ hi hp => by omega

theorem le_scanPeriod (fuel p : Nat) : p ≤ scanPeriod q fuel p := by
  induction fuel generalizing p with
  | zero => exact Nat.le_refl p
  | succ fuel ih =>
    rw [scanPeriod]
    split
    case isTrue => exact Nat.le_refl p
    case isFalse => exact Nat.le_of_succ_le (ih (p + 1))

/-- A scan whose candidates reach the length ends at one that repeats. -/
theorem repeatsEvery_scanPeriod {fuel p : Nat} (h : q.length ≤ p + fuel) :
    repeatsEvery q (scanPeriod q fuel p) = true := by
  induction fuel generalizing p with
  | zero => exact repeatsEvery_of_length_le h
  | succ fuel ih =>
    rw [scanPeriod]
    split
    case isTrue hrepeats => exact hrepeats
    case isFalse => exact ih (by omega)

/-- The scan passes over no candidate that repeats. -/
theorem not_repeatsEvery_of_lt_scanPeriod {fuel p c : Nat} (hle : p ≤ c) (hlt : c < scanPeriod q fuel p) :
    ¬ repeatsEvery q c = true := by
  induction fuel generalizing p with
  | zero => exact absurd hlt (Nat.not_lt.mpr hle)
  | succ fuel ih =>
    rw [scanPeriod] at hlt
    split at hlt
    case isTrue => exact absurd hlt (Nat.not_lt.mpr hle)
    case isFalse hnot =>
      obtain rfl | hbeyond := Nat.eq_or_lt_of_le hle
      · exact hnot
      · exact ih hbeyond hlt

theorem isPeriodOf_period (q : List Bit) : IsPeriodOf q (period q) :=
  isPeriodOf_iff.mpr ⟨le_scanPeriod _ _, repeatsEvery_scanPeriod (Nat.le_add_left _ _)⟩

theorem not_isPeriodOf_of_lt_period {p : Nat} (h : p < period q) : ¬ IsPeriodOf q p := by
  rw [isPeriodOf_iff]
  exact fun ⟨hpos, hrepeats⟩ => not_repeatsEvery_of_lt_scanPeriod hpos h hrepeats

/-- The length is a period of its own sequence, so the least one is at most it. -/
theorem period_le_length (h : q ≠ []) : period q ≤ q.length := by
  by_contra hlong
  have hlength : IsPeriodOf q q.length :=
    isPeriodOf_iff.mpr ⟨List.length_pos_iff.mpr h, repeatsEvery_of_length_le (Nat.le_refl _)⟩
  exact not_isPeriodOf_of_lt_period (Nat.lt_of_not_le hlong) hlength

theorem distinctValues_eq_two_iff : distinctValues q = 2 ↔ 0#1 ∈ q ∧ 1#1 ∈ q := by
  by_cases hzero : 0#1 ∈ q <;> by_cases hone : 1#1 ∈ q <;> simp [distinctValues, hzero, hone]

theorem classifyTwoval_eq (q : List Bit) (n : Nat) :
    classifyTwoval q n = if 0#1 ∈ q ∧ 1#1 ∈ q then
      (if period q = 2 ^ n - 1 then .primitive else .irreducibleNonPrimitive) else .reducible := by
  by_cases htwo : 0#1 ∈ q ∧ 1#1 ∈ q <;> simp [classifyTwoval, distinctValues_eq_two_iff, maxPeriod, htwo]

end Sys2Proof.Machine
end

section
/-! SUPPORT. What `PERIOD` and `CLASSIFY` do on each of their paths (41_period_classifier.md R120, R121). -/

namespace Sys2Proof.Machine

variable {s : State}

theorem ksSeq_eq_cells (s : State) : ksSeq s = cells s.ks s.kslen.toNat := by
  simp [ksSeq, Memory.readSeq, cells]

/-- `PERIOD` holds the measured period whole: it is at most the length of the sequence, which is a word. -/
theorem toNat_ofNat_period_ksSeq (hpos : 1 ≤ s.kslen.toNat) :
    (BitVec.ofNat 32 (period (ksSeq s))).toNat = period (ksSeq s) := by
  have hne : ksSeq s ≠ [] := List.length_pos_iff.mp (hpos.trans_eq (ksSeq_length s).symm)
  have hbound : period (ksSeq s) ≤ s.kslen.toNat := by simpa using period_le_length hne
  rw [BitVec.toNat_ofNat, Nat.mod_eq_of_lt (Nat.lt_of_le_of_lt hbound s.kslen.isLt)]

/-- `MAXPER` holds `2^n - 1` whole for every degree of the reference block. -/
theorem toNat_ofNat_maxPeriod {n : Nat} (h : n ≤ Config.params.nmax) :
    (BitVec.ofNat 32 (maxPeriod n)).toNat = 2 ^ n - 1 := by
  have hdegree : 2 ^ n ≤ 2 ^ 16 := Nat.pow_le_pow_right Nat.two_pos h
  rw [maxPeriod, BitVec.toNat_ofNat, Nat.mod_eq_of_lt (by omega)]

theorem exec_period_of_long (hlong : Config.params.lmax < s.kslen.toNat) :
    exec .period s = .next (raise (capacityExceeded s.kslen) s) := by
  obtain ⟨_, hraise⟩ | ⟨hempty, _⟩ | ⟨_, hfits, _⟩ := cmdPeriod_cases Config.params s
  · exact congrArg Host.Outcome.next hraise
  · simp [hempty] at hlong
  · omega

theorem exec_period_of_empty (hempty : s.kslen.toNat = 0) : exec .period s = .next (raise invalidSequence s) := by
  obtain ⟨hlong, _⟩ | ⟨_, hraise⟩ | ⟨hne, _⟩ := cmdPeriod_cases Config.params s
  · omega
  · exact congrArg Host.Outcome.next hraise
  · exact absurd (BitVec.eq_of_toNat_eq hempty) hne

theorem exec_period_of_fits (hpos : 1 ≤ s.kslen.toNat) (hfits : s.kslen.toNat ≤ Config.params.lmax) :
    exec .period s = .next (done { s with period := BitVec.ofNat 32 (period (ksSeq s)) }) := by
  obtain ⟨hlong, _⟩ | ⟨hempty, _⟩ | ⟨_, _, hdone⟩ := cmdPeriod_cases Config.params s
  · omega
  · simp [hempty] at hpos
  · exact congrArg Host.Outcome.next hdone

section
variable (st : Strategy)

theorem exec_classifyCommand (s : State) :
    exec (classifyCommand st) s = .next (cmdClassify st Config.params s) := by
  cases st <;> rfl

theorem exec_classify_of_long (hlong : Config.params.lmax < s.kslen.toNat) :
    exec (classifyCommand st) s = .next (raise (capacityExceeded s.kslen) s) := by
  rw [exec_classifyCommand]
  obtain ⟨_, hraise⟩ | ⟨hempty, _⟩ | ⟨_, hfits, _⟩ | ⟨_, hfits, _⟩ := cmdClassify_cases st Config.params s
  · exact congrArg Host.Outcome.next hraise
  · simp [hempty] at hlong
  · omega
  · omega

theorem exec_classify_of_empty (hempty : s.kslen.toNat = 0) :
    exec (classifyCommand st) s = .next (raise invalidSequence s) := by
  rw [exec_classifyCommand]
  have hzero : s.kslen = 0#32 := BitVec.eq_of_toNat_eq hempty
  obtain ⟨hlong, _⟩ | ⟨_, hraise⟩ | ⟨hne, _⟩ | ⟨hne, _⟩ := cmdClassify_cases st Config.params s
  · omega
  · exact congrArg Host.Outcome.next hraise
  · exact absurd hzero hne
  · exact absurd hzero hne

variable (hpos : 1 ≤ s.kslen.toNat) (hfits : s.kslen.toNat ≤ Config.params.lmax)
include hpos hfits

theorem exec_classify_of_degree (hdegree : s.degree.toNat < 1 ∨ Config.params.nmax < s.degree.toNat) :
    exec (classifyCommand st) s = .next (raise (invalidConfig 2 0) s) := by
  rw [exec_classifyCommand]
  obtain ⟨hlong, _⟩ | ⟨hempty, _⟩ | ⟨_, _, _, hraise⟩ | ⟨_, _, hlo, hhi, _⟩ := cmdClassify_cases st Config.params s
  · omega
  · simp [hempty] at hpos
  · exact congrArg Host.Outcome.next hraise
  · omega

theorem exec_classify_of_fits (hlo : 1 ≤ s.degree.toNat) (hhi : s.degree.toNat ≤ Config.params.nmax) :
    exec (classifyCommand st) s = .next (done { s with
      period := BitVec.ofNat 32 (period (ksSeq s))
      maxper := BitVec.ofNat 32 (maxPeriod s.degree.toNat)
      cls := classify st (ksSeq s) s.degree.toNat }) := by
  rw [exec_classifyCommand]
  obtain ⟨hlong, _⟩ | ⟨hempty, _⟩ | ⟨_, _, hdegree, _⟩ | ⟨_, _, _, _, hdone⟩ := cmdClassify_cases st Config.params s
  · omega
  · simp [hempty] at hpos
  · omega
  · exact congrArg Host.Outcome.next hdone

end

end Sys2Proof.Machine
end

section
/-! PROOFS. The statements about the Classifier (41_period_classifier.md). -/

namespace Sys2Proof.Machine

/-- Settles O21: the scan ends at a candidate that repeats and passes over none. -/
theorem periodIsTheLeast : Obligations.PeriodIsTheLeast :=
  fun q _ => ⟨isPeriodOf_period q, fun _ => not_isPeriodOf_of_lt_period⟩

/-- Settles O23: by the three paths of `PERIOD`. -/
theorem periodCommand : Obligations.PeriodCommand := by
  intro s
  refine ⟨exec_period_of_long, exec_period_of_empty, fun hpos hfits => ?_⟩
  rw [← ksSeq_eq_cells]
  exact ⟨_, isPeriodOf_period _, fun _ => not_isPeriodOf_of_lt_period, _, toNat_ofNat_period_ksSeq hpos,
    exec_period_of_fits hpos hfits⟩

/-- Settles O24: by the four paths of `CLASSIFY`, the failing ones the same for both strategies. -/
theorem classifyCommands : Obligations.ClassifyCommands := by
  intro s
  refine ⟨fun i hi => ?_, fun hpos hfits hlo hhi => ?_⟩
  · obtain ⟨st, rfl⟩ : ∃ st, i = classifyCommand st := hi.elim (⟨.exact, ·⟩) (⟨.twoval, ·⟩)
    exact ⟨exec_classify_of_long st, exec_classify_of_empty st, exec_classify_of_degree st⟩
  · rw [← ksSeq_eq_cells]
    refine ⟨_, _, _, isPeriodOf_period _, fun _ => not_isPeriodOf_of_lt_period, toNat_ofNat_period_ksSeq hpos,
      toNat_ofNat_maxPeriod hhi, exec_classify_of_fits .exact hpos hfits hlo hhi, ?_⟩
    rw [← classifyTwoval_eq]
    exact exec_classify_of_fits .twoval hpos hfits hlo hhi

end Sys2Proof.Machine
end

section
/-! SUPPORT. A block of cells written from index 0, and the sequences read back from the buffers, cell by cell
(20_memory.md R50, R54). -/

namespace Sys2Proof.Machine

section
variable {w : Nat} (m : Memory w) {i n : Nat} {vs : List (BitVec w)}

theorem Memory.read_write_zero_of_lt (h : i < vs.length) : (m.write 0 vs).read i = vs.getD i 0#w := by
  rw [Memory.read_write, if_pos ⟨Nat.zero_le i, by omega⟩, Nat.sub_zero]

theorem Memory.read_write_zero_of_ge (h : vs.length ≤ i) : (m.write 0 vs).read i = m.read i := by
  rw [Memory.read_write, if_neg (by omega)]

theorem Memory.readSeq_zero_getElem? (h : i < n) : (m.readSeq 0 n)[i]? = some (m.read i) := by
  rw [Memory.readSeq_getElem?, if_pos h, Nat.zero_add]

theorem Memory.readSeq_zero_getD (h : i < n) (v : BitVec w) : (m.readSeq 0 n).getD i v = m.read i := by
  rw [List.getD_eq_getElem?_getD, m.readSeq_zero_getElem? h, Option.getD_some]

end

section
variable {s : State} {i : Nat}

theorem dbSeq_getD (h : i < s.dblen.toNat) : (dbSeq s).getD i 0#1 = s.db.read i := s.db.readSeq_zero_getD h _

theorem ksSeq_getD (h : i < s.kslen.toNat) : (ksSeq s).getD i 0#1 = s.ks.read i := s.ks.readSeq_zero_getD h _

theorem txSeq_getElem? (h : i < s.txlen.toNat) : (txSeq s)[i]? = some (s.tx.read i) := s.tx.readSeq_zero_getElem? h

theorem mem_txSeq_iff {c : Word} : c ∈ txSeq s ↔ ∃ j < s.txlen.toNat, s.tx.read j = c := by
  simp [txSeq, Memory.readSeq]

end

end Sys2Proof.Machine
end

section
/-! SUPPORT. The codec's pure functions: when each fails and what its result holds, element by element
(42_cipher_codec.md R130 to R136). -/

namespace Sys2Proof.Machine

section
variable {text : List Word}

theorem bitAt_toNat_eq_div_mod (v : Word) (i : Nat) : (bitAt v i).toNat = v.toNat / 2 ^ i % 2 := by
  rw [bitAt_toNat, Nat.toNat_testBit]

theorem charBits_getElem? (c : Word) {b : Nat} (hb : b < 8) : (charBits c)[b]? = some (bitAt c (7 - b)) := by
  simp [charBits, hb]

/-- Bit `b` of character `j` stands at index `8j + b` (20_memory.md R56). -/
theorem flatMap_charBits_getElem? (text : List Word) (j : Nat) {b : Nat} (hb : b < 8) :
    (text.flatMap charBits)[8 * j + b]? = text[j]?.map (fun c => bitAt c (7 - b)) := by
  induction text generalizing j with
  | nil => rfl
  | cons c text ih =>
    cases j with
    | zero =>
      have hfirst : 8 * 0 + b < (charBits c).length := by simpa using hb
      rw [List.flatMap_cons, List.getElem?_append_left hfirst, Nat.mul_zero, Nat.zero_add, charBits_getElem? c hb]
      rfl
    | succ j =>
      have hskip : (charBits c).length ≤ 8 * (j + 1) + b := by
        rw [charBits_length]
        omega
      have hindex : 8 * (j + 1) + b - (charBits c).length = 8 * j + b := by
        rw [charBits_length]
        omega
      rw [List.flatMap_cons, List.getElem?_append_right hskip, hindex, ih, List.getElem?_cons_succ]

theorem flatMap_charBits_getD {j b : Nat} {c : Word} (hj : text[j]? = some c) (hb : b < 8) :
    (text.flatMap charBits).getD (8 * j + b) 0#1 = bitAt c (7 - b) := by
  rw [List.getD_eq_getElem?_getD, flatMap_charBits_getElem? text j hb, hj, Option.map_some, Option.getD_some]

theorem textToBits_of_bytes (h : ∀ c ∈ text, c.toNat ≤ 255) : textToBits text = .ok (text.flatMap charBits) := by
  obtain ⟨j, hfind, _⟩ | ⟨_, hok⟩ := textToBits_cases text
  · obtain ⟨hj, hbad, _⟩ := List.findIdx?_eq_some_iff_getElem.mp hfind
    exact absurd (h _ (List.getElem_mem hj)) (Nat.not_le.mpr (of_decide_eq_true hbad))
  · exact hok

theorem textToBits_of_least {j : Nat} {c : Word} (hj : text[j]? = some c) (hbad : 255 < c.toNat)
    (hbefore : ∀ k < j, ∀ d, text[k]? = some d → d.toNat ≤ 255) : textToBits text = .error (encodingError j) := by
  obtain ⟨hlt, hget⟩ := List.getElem?_eq_some_iff.mp hj
  obtain ⟨i, hfind, herror⟩ | ⟨hbytes, _⟩ := textToBits_cases text
  · have hleast : text.findIdx? (fun c => decide (c.toNat > 255)) = some j := by
      refine List.findIdx?_eq_some_iff_getElem.mpr ⟨hlt, decide_eq_true (hget ▸ hbad), fun k hk hdec => ?_⟩
      exact Nat.not_le.mpr (of_decide_eq_true hdec) (hbefore k hk _ (List.getElem?_eq_getElem _))
    rw [herror, Option.some.inj (hfind.symm.trans hleast)]
  · exact absurd (hbytes c (List.mem_of_getElem? hj)) (Nat.not_le.mpr hbad)

/-- A byte is the sum of its bits, the most significant first. -/
theorem sum_bits_of_byte {n : Nat} (h : n ≤ 255) : ∑ b ∈ Finset.range 8, n / 2 ^ (7 - b) % 2 * 2 ^ (7 - b) = n := by
  simp only [Finset.sum_range_succ, Finset.sum_range_zero]
  omega

end

section
variable {bits : List Bit}

/-- A character of 8 bits loses nothing in its cell of 32. -/
theorem charAt_toNat (bits : List Bit) (j : Nat) :
    (charAt bits j).toNat = ∑ b ∈ Finset.range 8, (bits.getD (8 * j + b) 0#1).toNat * 2 ^ (7 - b) := by
  have hbyte : ∑ b ∈ Finset.range 8, (bits.getD (8 * j + b) 0#1).toNat * 2 ^ (7 - b) ≤ 255 :=
    calc _
      _ ≤ ∑ b ∈ Finset.range 8, 1 * 2 ^ (7 - b) :=
        Finset.sum_le_sum fun b _ => Nat.mul_le_mul_right _ (Nat.le_of_lt_succ (BitVec.isLt _))
      _ = 255 := by decide
  exact Nat.mod_eq_of_lt (Nat.lt_of_le_of_lt hbyte (by decide))

theorem bitsToText_of_malformed (h : bits.length % 8 ≠ 0) : bitsToText bits = .error (malformedBits bits.length) :=
  if_pos h

theorem bitsToText_of_whole (h : bits.length % 8 = 0) :
    bitsToText bits = .ok ((List.range (bits.length / 8)).map (charAt bits)) :=
  if_neg (not_not.mpr h)

theorem map_charAt_getD {j n : Nat} (h : j < n) (v : Word) :
    ((List.range n).map (charAt bits)).getD j v = charAt bits j := by
  simp [h]

/-- The first half of 42_cipher_codec.md R132: the bits of a single-byte text are that text. -/
theorem bitsToText_flatMap_charBits {text : List Word} (h : ∀ c ∈ text, c.toNat ≤ 255) :
    bitsToText (text.flatMap charBits) = .ok text := by
  have hlen : (text.flatMap charBits).length = 8 * text.length := flatMap_charBits_length text
  rw [bitsToText_of_whole (by omega), hlen, Nat.mul_div_cancel_left _ (by decide)]
  refine congrArg Except.ok (List.ext_getElem (by simp) fun j _ hj => BitVec.eq_of_toNat_eq ?_)
  rw [List.getElem_map, List.getElem_range, charAt_toNat]
  calc ∑ b ∈ Finset.range 8, ((text.flatMap charBits).getD (8 * j + b) 0#1).toNat * 2 ^ (7 - b)
    _ = ∑ b ∈ Finset.range 8, text[j].toNat / 2 ^ (7 - b) % 2 * 2 ^ (7 - b) := by
      refine Finset.sum_congr rfl fun b hb => ?_
      rw [flatMap_charBits_getD (List.getElem?_eq_getElem hj) (Finset.mem_range.mp hb), bitAt_toNat_eq_div_mod]
    _ = text[j].toNat := sum_bits_of_byte (h _ (List.getElem_mem hj))

end

/-- What `xorTransform` gives for sequences of one length (42_cipher_codec.md R133; `xorTransform_of_eq`). -/
def xorBits (data key : List Bit) : List Bit := List.zipWith (fun d k => d ^^^ k) data key

section
variable {data key bits : List Bit} {text : List Word}

theorem xorTransform_of_ne (h : data.length ≠ key.length) :
    xorTransform data key = .error (lengthMismatch key.length) := if_pos h

theorem xorTransform_of_eq (h : data.length = key.length) : xorTransform data key = .ok (xorBits data key) :=
  if_neg (not_not.mpr h)

theorem xorBits_length (h : data.length = key.length) : (xorBits data key).length = data.length := by
  simp [xorBits, h]

theorem xorBits_getD_toNat (h : data.length = key.length) (i : Nat) :
    ((xorBits data key).getD i 0#1).toNat = ((data.getD i 0#1).toNat + (key.getD i 0#1).toNat) % 2 := by
  rw [← bit_xor_toNat]
  refine congrArg BitVec.toNat ?_
  by_cases hi : i < data.length
  · have hkey : i < key.length := h ▸ hi
    simp [xorBits, hi, hkey]
  · have hkey : ¬ i < key.length := h ▸ hi
    simp [xorBits, hi, hkey]

/-- XOR with the same keystream twice gives the data (42_cipher_codec.md R137). -/
theorem xorTransform_undoes (h : xorTransform data key = .ok bits) : xorTransform bits key = .ok data := by
  have hbits : bits.length = data.length := xorTransform_length h
  obtain ⟨_, herror⟩ | ⟨hlen, hok⟩ := xorTransform_cases data key
  · exact absurd (herror.symm.trans h) (by simp)
  · obtain rfl := Except.ok.inj (hok.symm.trans h)
    rw [xorTransform_of_eq (hbits.trans hlen)]
    refine congrArg Except.ok (List.ext_getElem (by simp [xorBits, hlen]) fun i _ _ => ?_)
    simp only [xorBits, List.getElem_zipWith]
    rw [BitVec.xor_assoc, BitVec.xor_self, BitVec.xor_zero]

theorem encrypt_of_error {f : Failure} (h : textToBits text = .error f) : encrypt text key = .error f := by
  rw [encrypt, h]
  rfl

theorem encrypt_of_ok (h : textToBits text = .ok bits) : encrypt text key = xorTransform bits key := by
  rw [encrypt, h]
  rfl

theorem decrypt_of_error {f : Failure} (h : xorTransform data key = .error f) : decrypt data key = .error f := by
  rw [decrypt, h]
  rfl

theorem decrypt_of_ok (h : xorTransform data key = .ok bits) : decrypt data key = bitsToText bits := by
  rw [decrypt, h]
  rfl

end

end Sys2Proof.Machine
end

section
/-! SUPPORT. What the codec's commands do on each of their paths (42_cipher_codec.md R138 to R142). -/

namespace Sys2Proof.Machine

variable {s : State}

/-- The bits of the text in `TX` (42_cipher_codec.md R130; `textToBits_txSeq_of_bytes`). -/
def textBits (s : State) : List Bit := (txSeq s).flatMap charBits

theorem textBits_length : (textBits s).length = 8 * s.txlen.toNat := by
  rw [textBits, flatMap_charBits_length, txSeq_length]

theorem textBits_getD_toNat {j b : Nat} (hj : j < s.txlen.toNat) (hb : b < 8) :
    ((textBits s).getD (8 * j + b) 0#1).toNat = (s.tx.read j).toNat / 2 ^ (7 - b) % 2 := by
  rw [textBits, flatMap_charBits_getD (txSeq_getElem? hj) hb, bitAt_toNat_eq_div_mod]

theorem textToBits_txSeq_of_bytes (h : ∀ j < s.txlen.toNat, (s.tx.read j).toNat ≤ 255) :
    textToBits (txSeq s) = .ok (textBits s) := by
  refine textToBits_of_bytes fun c hc => ?_
  obtain ⟨j, hj, rfl⟩ := mem_txSeq_iff.mp hc
  exact h j hj

theorem textToBits_txSeq_of_least {j : Nat} (hj : j < s.txlen.toNat) (hbad : 255 < (s.tx.read j).toNat)
    (hbefore : ∀ k < j, (s.tx.read k).toNat ≤ 255) : textToBits (txSeq s) = .error (encodingError j) := by
  refine textToBits_of_least (txSeq_getElem? hj) hbad fun k hk d hd => ?_
  obtain rfl := Option.some.inj ((txSeq_getElem? (hk.trans hj)).symm.trans hd)
  exact hbefore k hk

theorem malformedBits_dblen : malformedBits s.dblen.toNat = { code := .malformedBits, info := s.dblen } := by
  rw [malformedBits, BitVec.ofNat_toNat, BitVec.setWidth_eq]

theorem xorTransform_ksSeq_of_ne {data : List Bit} (h : data.length ≠ s.kslen.toNat) :
    xorTransform data (ksSeq s) = .error { code := .lengthMismatch, info := s.kslen } := by
  rw [xorTransform_of_ne (by rwa [ksSeq_length]), ksSeq_length, lengthMismatch, BitVec.ofNat_toNat, BitVec.setWidth_eq]

theorem dbSeq_length_ne (h : s.dblen ≠ s.kslen) : (dbSeq s).length ≠ s.kslen.toNat := by
  rw [dbSeq_length]
  exact fun heq => h (BitVec.eq_of_toNat_eq heq)

theorem dbSeq_length_eq (h : s.dblen = s.kslen) : (dbSeq s).length = (ksSeq s).length := by
  rw [dbSeq_length, ksSeq_length, h]

theorem xorBits_dbSeq_length (h : s.dblen = s.kslen) : (xorBits (dbSeq s) (ksSeq s)).length = s.dblen.toNat :=
  (xorBits_length (dbSeq_length_eq h)).trans (dbSeq_length s)

theorem xorBits_dbSeq_getD_toNat (h : s.dblen = s.kslen) {i : Nat} (hi : i < s.dblen.toNat) :
    ((xorBits (dbSeq s) (ksSeq s)).getD i 0#1).toNat = ((s.db.read i).toNat + (s.ks.read i).toNat) % 2 := by
  rw [xorBits_getD_toNat (dbSeq_length_eq h), dbSeq_getD hi, ksSeq_getD (h ▸ hi)]

/-- A sequence of whole characters, as long as `DBLEN` says, becomes the text in `TX`: so end both `B2T` and `DEC`. -/
theorem concludeTx_bitsToText_of_whole {bits : List Bit} (hlen : bits.length = s.dblen.toNat)
    (hwhole : s.dblen.toNat % 8 = 0) :
    ∃ t, concludeTx (bitsToText bits) s = t ∧
      t.txlen.toNat = s.dblen.toNat / 8 ∧
      (∀ j < s.dblen.toNat / 8,
        (t.tx.read j).toNat = ∑ b ∈ Finset.range 8, (bits.getD (8 * j + b) 0#1).toNat * 2 ^ (7 - b)) ∧
      (∀ a, s.dblen.toNat / 8 ≤ a → t.tx.read a = s.tx.read a) ∧
      t = { s with err := .ok, errinfo := 0#32, tx := t.tx, txlen := t.txlen } := by
  have htext : ((List.range (s.dblen.toNat / 8)).map (charAt bits)).length = s.dblen.toNat / 8 := by simp
  have hword : s.dblen.toNat / 8 < 2 ^ 32 := Nat.lt_of_le_of_lt (Nat.div_le_self _ _) s.dblen.isLt
  rw [bitsToText_of_whole (hlen.symm ▸ hwhole), hlen]
  refine ⟨_, rfl, ?_, fun j hj => ?_, fun a ha => ?_, rfl⟩
  · exact (congrArg (· % 2 ^ 32) htext).trans (Nat.mod_eq_of_lt hword)
  · calc _
      _ = (charAt bits j).toNat :=
        congrArg BitVec.toNat ((s.tx.read_write_zero_of_lt (hj.trans_eq htext.symm)).trans (map_charAt_getD hj _))
      _ = _ := charAt_toNat bits j
  · exact s.tx.read_write_zero_of_ge (htext.trans_le ha)

theorem exec_t2b_of_long (h : Config.params.cmax < s.txlen.toNat) :
    exec .t2b s = .next (raise (capacityExceeded s.txlen) s) := by
  obtain ⟨_, hraise⟩ | ⟨hfits, _⟩ := cmdT2b_cases Config.params s
  · exact congrArg Host.Outcome.next hraise
  · omega

theorem exec_t2b_of_fits (h : s.txlen.toNat ≤ Config.params.cmax) :
    exec .t2b s = .next (concludeDb (textToBits (txSeq s)) s) := by
  obtain ⟨hlong, _⟩ | ⟨_, hend⟩ := cmdT2b_cases Config.params s
  · omega
  · exact congrArg Host.Outcome.next hend

theorem exec_b2t_of_long (h : Config.params.lmax < s.dblen.toNat) :
    exec .b2t s = .next (raise (capacityExceeded s.dblen) s) := by
  obtain ⟨_, hraise⟩ | ⟨hfits, _⟩ := cmdB2t_cases Config.params s
  · exact congrArg Host.Outcome.next hraise
  · omega

theorem exec_b2t_of_fits (h : s.dblen.toNat ≤ Config.params.lmax) :
    exec .b2t s = .next (concludeTx (bitsToText (dbSeq s)) s) := by
  obtain ⟨hlong, _⟩ | ⟨_, hend⟩ := cmdB2t_cases Config.params s
  · omega
  · exact congrArg Host.Outcome.next hend

theorem exec_xor_of_longData (h : Config.params.lmax < s.dblen.toNat) :
    exec .xor s = .next (raise (capacityExceeded s.dblen) s) := by
  obtain ⟨_, hraise⟩ | ⟨hfits, _⟩ | ⟨_, hfits, _⟩ | ⟨_, hfits, _⟩ := cmdXor_cases Config.params s
  · exact congrArg Host.Outcome.next hraise
  all_goals omega

theorem exec_enc_of_longText (h : Config.params.cmax < s.txlen.toNat) :
    exec .enc s = .next (raise (capacityExceeded s.txlen) s) := by
  obtain ⟨_, hraise⟩ | ⟨hfits, _⟩ | ⟨hfits, _⟩ := cmdEnc_cases Config.params s
  · exact congrArg Host.Outcome.next hraise
  all_goals omega

theorem exec_dec_of_longData (h : Config.params.lmax < s.dblen.toNat) :
    exec .dec s = .next (raise (capacityExceeded s.dblen) s) := by
  obtain ⟨_, hraise⟩ | ⟨hfits, _⟩ | ⟨hfits, _⟩ := cmdDec_cases Config.params s
  · exact congrArg Host.Outcome.next hraise
  all_goals omega

section
variable (htext : s.txlen.toNat ≤ Config.params.cmax)
include htext

theorem exec_enc_of_longKey (h : Config.params.lmax < s.kslen.toNat) :
    exec .enc s = .next (raise (capacityExceeded s.kslen) s) := by
  obtain ⟨hlong, _⟩ | ⟨_, _, hraise⟩ | ⟨_, hfits, _⟩ := cmdEnc_cases Config.params s
  · omega
  · exact congrArg Host.Outcome.next hraise
  · omega

theorem exec_enc_of_fits (h : s.kslen.toNat ≤ Config.params.lmax) :
    exec .enc s = .next (concludeDb (encrypt (txSeq s) (ksSeq s)) s) := by
  obtain ⟨hlong, _⟩ | ⟨_, hlong, _⟩ | ⟨_, _, hend⟩ := cmdEnc_cases Config.params s
  · omega
  · omega
  · exact congrArg Host.Outcome.next hend

end

section
variable (hdata : s.dblen.toNat ≤ Config.params.lmax)
include hdata

theorem exec_xor_of_longKey (h : Config.params.lmax < s.kslen.toNat) :
    exec .xor s = .next (raise (capacityExceeded s.kslen) s) := by
  obtain ⟨hlong, _⟩ | ⟨_, _, hraise⟩ | ⟨_, _, hfits, _⟩ | ⟨_, _, hfits, _⟩ := cmdXor_cases Config.params s
  · omega
  · exact congrArg Host.Outcome.next hraise
  all_goals omega

theorem exec_dec_of_longKey (h : Config.params.lmax < s.kslen.toNat) :
    exec .dec s = .next (raise (capacityExceeded s.kslen) s) := by
  obtain ⟨hlong, _⟩ | ⟨_, _, hraise⟩ | ⟨_, hfits, _⟩ := cmdDec_cases Config.params s
  · omega
  · exact congrArg Host.Outcome.next hraise
  · omega

variable (hkey : s.kslen.toNat ≤ Config.params.lmax)
include hkey

theorem exec_xor_of_error {f : Failure} (h : xorTransform (dbSeq s) (ksSeq s) = .error f) :
    exec .xor s = .next (raise f s) := by
  obtain ⟨hlong, _⟩ | ⟨_, hlong, _⟩ | ⟨g, _, _, herror, hraise⟩ | ⟨bits, _, _, hok, _⟩ := cmdXor_cases Config.params s
  · omega
  · omega
  · obtain rfl := Except.error.inj (herror.symm.trans h)
    exact congrArg Host.Outcome.next hraise
  · exact absurd (hok.symm.trans h) (by simp)

theorem exec_xor_of_ok {bits : List Bit} (h : xorTransform (dbSeq s) (ksSeq s) = .ok bits) :
    exec .xor s = .next (done { s with db := s.db.write 0 bits }) := by
  obtain ⟨hlong, _⟩ | ⟨_, hlong, _⟩ | ⟨f, _, _, herror, _⟩ | ⟨bits', _, _, hok, hdone⟩ := cmdXor_cases Config.params s
  · omega
  · omega
  · exact absurd (herror.symm.trans h) (by simp)
  · obtain rfl := Except.ok.inj (hok.symm.trans h)
    exact congrArg Host.Outcome.next hdone

theorem exec_dec_of_fits : exec .dec s = .next (concludeTx (decrypt (dbSeq s) (ksSeq s)) s) := by
  obtain ⟨hlong, _⟩ | ⟨_, hlong, _⟩ | ⟨_, _, hend⟩ := cmdDec_cases Config.params s
  · omega
  · omega
  · exact congrArg Host.Outcome.next hend

end

end Sys2Proof.Machine
end

section
/-! PROOFS. The statements about the Codec (42_cipher_codec.md). -/

namespace Sys2Proof.Machine

/-- Settles O27: by the paths of `T2B`; the bits of the text are written from cell 0. -/
theorem textToBitsCommand : Obligations.TextToBitsCommand := by
  intro s
  refine ⟨exec_t2b_of_long, fun hfits j hj hbad hbefore => ?_, fun hfits hbytes => ?_⟩
  · rw [exec_t2b_of_fits hfits, textToBits_txSeq_of_least hj hbad hbefore]
    rfl
  · have hcmax : s.txlen.toNat ≤ 32768 := hfits
    have hlen : (textBits s).length = 8 * s.txlen.toNat := textBits_length
    rw [exec_t2b_of_fits hfits, textToBits_txSeq_of_bytes hbytes]
    refine ⟨_, rfl, ?_, fun j hj b hb => ?_, fun a ha => s.db.read_write_zero_of_ge (hlen.trans_le ha), rfl⟩
    · exact (congrArg (· % 2 ^ 32) hlen).trans (Nat.mod_eq_of_lt (by omega))
    · have hcell : 8 * j + b < (textBits s).length := by omega
      exact (congrArg BitVec.toNat (s.db.read_write_zero_of_lt hcell)).trans (textBits_getD_toNat hj hb)

/-- Settles O28: by the paths of `B2T`. -/
theorem bitsToTextCommand : Obligations.BitsToTextCommand := by
  intro s
  refine ⟨exec_b2t_of_long, fun hfits hmalformed => ?_, fun hfits hwhole => ?_⟩
  · rw [exec_b2t_of_fits hfits, bitsToText_of_malformed (by rwa [dbSeq_length]), dbSeq_length, malformedBits_dblen]
    rfl
  · obtain ⟨t, hend, htxlen, hread, hrest⟩ := concludeTx_bitsToText_of_whole (dbSeq_length s) hwhole
    refine ⟨t, hend ▸ exec_b2t_of_fits hfits, htxlen, fun j hj => ?_, hrest⟩
    refine (hread j hj).trans (Finset.sum_congr rfl fun b hb => ?_)
    have hb : b < 8 := Finset.mem_range.mp hb
    rw [dbSeq_getD (by omega)]

/-- Settles O29: by the paths of `XOR`; the result is as long as the data, so no cell beyond it is written. -/
theorem xorCommand : Obligations.XorCommand := by
  intro s
  refine ⟨exec_xor_of_longData, exec_xor_of_longKey, fun hdata hkey hne => ?_, fun hdata heq => ?_⟩
  · exact exec_xor_of_error hdata hkey (xorTransform_ksSeq_of_ne (dbSeq_length_ne hne))
  · have hlen : (xorBits (dbSeq s) (ksSeq s)).length = s.dblen.toNat := xorBits_dbSeq_length heq
    refine ⟨_, exec_xor_of_ok hdata (heq ▸ hdata) (xorTransform_of_eq (dbSeq_length_eq heq)), fun i hi => ?_,
      fun a ha => s.db.read_write_zero_of_ge (hlen.trans_le ha), rfl⟩
    exact (congrArg BitVec.toNat (s.db.read_write_zero_of_lt (hi.trans_eq hlen.symm))).trans
      (xorBits_dbSeq_getD_toNat heq hi)

/-- Settles O30: by the paths of `ENC`; the ciphertext is written from cell 0. -/
theorem encryptCommand : Obligations.EncryptCommand := by
  intro s
  refine ⟨exec_enc_of_longText, exec_enc_of_longKey, fun htext hkey j hj hbad hbefore => ?_,
    fun htext hkey hbytes hne => ?_, fun htext hbytes heq => ?_⟩
  · rw [exec_enc_of_fits htext hkey, encrypt_of_error (textToBits_txSeq_of_least hj hbad hbefore)]
    rfl
  · have hlen : (textBits s).length ≠ s.kslen.toNat := textBits_length.trans_ne hne
    rw [exec_enc_of_fits htext hkey, encrypt_of_ok (textToBits_txSeq_of_bytes hbytes), xorTransform_ksSeq_of_ne hlen]
    rfl
  · have hkey : s.kslen.toNat ≤ 262144 := heq.symm.trans_le (Nat.mul_le_mul_left 8 htext)
    have hsame : (textBits s).length = (ksSeq s).length := by rw [textBits_length, heq, ksSeq_length]
    have hlen : (xorBits (textBits s) (ksSeq s)).length = s.kslen.toNat :=
      (xorBits_length hsame).trans (textBits_length.trans heq)
    refine ⟨done { s with db := s.db.write 0 (xorBits (textBits s) (ksSeq s)), dblen := s.kslen }, ?_,
      fun j hj b hb => ?_, fun a ha => s.db.read_write_zero_of_ge (hlen.trans_le ha), rfl⟩
    · rw [exec_enc_of_fits htext hkey, encrypt_of_ok (textToBits_txSeq_of_bytes hbytes), xorTransform_of_eq hsame,
        concludeDb, hlen, BitVec.ofNat_toNat, BitVec.setWidth_eq]
    · have hcell : 8 * j + b < (xorBits (textBits s) (ksSeq s)).length := by omega
      rw [done_db, Memory.read_write_zero_of_lt _ hcell, xorBits_getD_toNat hsame, textBits_getD_toNat hj hb,
        ksSeq_getD (by omega)]

/-- Settles O31: by the paths of `DEC`; the text is that of the bits of `DB` XOR `KS`. -/
theorem decryptCommand : Obligations.DecryptCommand := by
  intro s
  refine ⟨exec_dec_of_longData, exec_dec_of_longKey, fun hdata hkey hne => ?_, fun hdata heq hmalformed => ?_,
    fun hdata heq hwhole => ?_⟩
  · rw [exec_dec_of_fits hdata hkey, decrypt_of_error (xorTransform_ksSeq_of_ne (dbSeq_length_ne hne))]
    rfl
  all_goals
    have hlen : (xorBits (dbSeq s) (ksSeq s)).length = s.dblen.toNat := xorBits_dbSeq_length heq
    rw [exec_dec_of_fits hdata (heq ▸ hdata), decrypt_of_ok (xorTransform_of_eq (dbSeq_length_eq heq))]
  · rw [bitsToText_of_malformed (hlen.symm ▸ hmalformed), hlen, malformedBits_dblen]
    rfl
  · obtain ⟨t, hend, htxlen, hread, hrest⟩ := concludeTx_bitsToText_of_whole hlen hwhole
    refine ⟨t, congrArg Host.Outcome.next hend, htxlen, fun j hj => ?_, hrest⟩
    refine (hread j hj).trans (Finset.sum_congr rfl fun b hb => ?_)
    have hb : b < 8 := Finset.mem_range.mp hb
    rw [xorBits_dbSeq_getD_toNat heq (by omega)]

/-- Settles O33: XOR with the keystream is undone by the same XOR, and the bits of the text give the text. -/
theorem decryptUndoesEncrypt : Obligations.DecryptUndoesEncrypt := by
  intro plaintext keystream hbytes hkey
  have hbits : textToBits plaintext = .ok (plaintext.flatMap charBits) := textToBits_of_bytes hbytes
  have hlen : (plaintext.flatMap charBits).length = keystream.length :=
    (flatMap_charBits_length plaintext).trans hkey.symm
  refine ⟨_, (encrypt_of_ok hbits).trans (xorTransform_of_eq hlen), ?_⟩
  calc decrypt (xorBits (plaintext.flatMap charBits) keystream) keystream
    _ = bitsToText (plaintext.flatMap charBits) := decrypt_of_ok (xorTransform_undoes (xorTransform_of_eq hlen))
    _ = .ok plaintext := bitsToText_flatMap_charBits hbytes

end Sys2Proof.Machine
end

section
/-! SUPPORT. The two ways a command ends: it completes (60_exceptions.md R159), or it raises an error (R160). -/

namespace Sys2Proof.Machine

/-- Of a command run from `s`: it completed or it raised an error in `s` itself, and led to the state given. -/
inductive CommandEnds (s : State) : State → Prop where
  | completed (u : State) : CommandEnds s (done u)
  | raised (f : Failure) : CommandEnds s (raise f s)

theorem concludeDb_ends (r : Except Failure (List Bit)) (s : State) : CommandEnds s (concludeDb r s) := by
  obtain ⟨f, _, h⟩ | ⟨bits, _, h⟩ := concludeDb_cases r s
  · exact h ▸ .raised f
  · exact h ▸ .completed _

theorem concludeTx_ends (r : Except Failure (List Word)) (s : State) : CommandEnds s (concludeTx r s) := by
  obtain ⟨f, _, h⟩ | ⟨text, _, h⟩ := concludeTx_cases r s
  · exact h ▸ .raised f
  · exact h ▸ .completed _

theorem cmdInit_ends (p : Params) (s : State) : CommandEnds s (cmdInit p s) := by
  obtain ⟨f, _, h⟩ | ⟨_, h⟩ := cmdInit_cases p s
  · exact h ▸ .raised f
  · exact h ▸ .completed _

theorem cmdStep_ends (p : Params) (s : State) : CommandEnds s (cmdStep p s) := by
  obtain ⟨_, h⟩ | ⟨_, _, h⟩ | ⟨_, _, h⟩ := cmdStep_cases p s
  · exact h ▸ .raised _
  · exact h ▸ .raised _
  · exact h ▸ .completed _

theorem cmdGen_ends (p : Params) (s : State) : CommandEnds s (cmdGen p s) := by
  obtain ⟨f, _, h⟩ | ⟨_, _, h⟩ | ⟨_, _, h⟩ := cmdGen_cases p s
  · exact h ▸ .raised f
  · exact h ▸ .raised _
  · exact h ▸ .completed _

theorem cmdPeriod_ends (p : Params) (s : State) : CommandEnds s (cmdPeriod p s) := by
  obtain ⟨_, h⟩ | ⟨_, h⟩ | ⟨_, _, h⟩ := cmdPeriod_cases p s
  · exact h ▸ .raised _
  · exact h ▸ .raised _
  · exact h ▸ .completed _

theorem cmdClassify_ends (strategy : Strategy) (p : Params) (s : State) :
    CommandEnds s (cmdClassify strategy p s) := by
  obtain ⟨_, h⟩ | ⟨_, h⟩ | ⟨_, _, _, h⟩ | ⟨_, _, _, _, h⟩ := cmdClassify_cases strategy p s
  · exact h ▸ .raised _
  · exact h ▸ .raised _
  · exact h ▸ .raised _
  · exact h ▸ .completed _

theorem cmdT2b_ends (p : Params) (s : State) : CommandEnds s (cmdT2b p s) := by
  obtain ⟨_, h⟩ | ⟨_, h⟩ := cmdT2b_cases p s
  · exact h ▸ .raised _
  · exact h ▸ concludeDb_ends _ s

theorem cmdB2t_ends (p : Params) (s : State) : CommandEnds s (cmdB2t p s) := by
  obtain ⟨_, h⟩ | ⟨_, h⟩ := cmdB2t_cases p s
  · exact h ▸ .raised _
  · exact h ▸ concludeTx_ends _ s

theorem cmdXor_ends (p : Params) (s : State) : CommandEnds s (cmdXor p s) := by
  obtain ⟨_, h⟩ | ⟨_, _, h⟩ | ⟨f, _, _, _, h⟩ | ⟨bits, _, _, _, h⟩ := cmdXor_cases p s
  · exact h ▸ .raised _
  · exact h ▸ .raised _
  · exact h ▸ .raised f
  · exact h ▸ .completed _

theorem cmdEnc_ends (p : Params) (s : State) : CommandEnds s (cmdEnc p s) := by
  obtain ⟨_, h⟩ | ⟨_, _, h⟩ | ⟨_, _, h⟩ := cmdEnc_cases p s
  · exact h ▸ .raised _
  · exact h ▸ .raised _
  · exact h ▸ concludeDb_ends _ s

theorem cmdDec_ends (p : Params) (s : State) : CommandEnds s (cmdDec p s) := by
  obtain ⟨_, h⟩ | ⟨_, _, h⟩ | ⟨_, _, h⟩ := cmdDec_cases p s
  · exact h ▸ .raised _
  · exact h ▸ .raised _
  · exact h ▸ concludeTx_ends _ s

theorem commandAt_ends (p : Params) (i : Instr) (s : State) : CommandEnds s (commandAt p i s) := by
  cases i with
  | init => exact cmdInit_ends p s
  | step => exact cmdStep_ends p s
  | gen => exact cmdGen_ends p s
  | period => exact cmdPeriod_ends p s
  | classifyExact => exact cmdClassify_ends .exact p s
  | classifyTwoval => exact cmdClassify_ends .twoval p s
  | t2b => exact cmdT2b_ends p s
  | b2t => exact cmdB2t_ends p s
  | xor => exact cmdXor_ends p s
  | enc => exact cmdEnc_ends p s
  | dec => exact cmdDec_ends p s

/-- Error entry: nothing but the code and the context is new (60_exceptions.md R160). -/
theorem CommandEnds.eq_of_err_ne_ok {s t : State} (h : CommandEnds s t) (herr : t.err ≠ .ok) :
    t = { s with err := t.err, errinfo := t.errinfo } := by
  cases h with
  | completed u => exact absurd (done_err u) herr
  | raised f => rfl

end Sys2Proof.Machine
end

section
/-! SUPPORT. What a register read answers: the registers that exist (10_state.md R21), the fields of `STATUS` (R23) and
the entries of the tap table (R28). -/

namespace Sys2Proof.Machine

theorem exists_regOfNumber {p : Params} {r : Nat} (hgap : r ≠ 15) (hr : r < 16 + p.tmax) :
    ∃ x, regOfNumber p r = some x := by
  have hexists : regOfNumber p r ≠ none := fun hnone => by
    obtain h | h := (regOfNumber_eq_none_iff p r).mp hnone <;> omega
  exact Option.ne_none_iff_exists'.mp hexists

theorem regOfNumber_tap {p : Params} {r : Nat} (hlo : 16 ≤ r) (hhi : r < 16 + p.tmax) :
    regOfNumber p r = some (.tap (r - 16)) := by
  rw [regOfNumber, if_neg (by omega), if_pos hhi]

theorem step_readReg {s : State} {r : Nat} {rest : List Access} {x : Reg} (hpending : s.pending = .readReg r :: rest)
    (hreg : regOfNumber Config.params r = some x) :
    step s = .next { s with pending := rest, answers := s.answers ++ [readReg s x] } := by
  rw [step_access s _ rest hpending, access_readReg_of_some hreg, readReg_pending]
  rfl

theorem toNat_append_eq_add {m n : Nat} (high : BitVec m) (low : BitVec n) :
    (high ++ low).toNat = high.toNat * 2 ^ n + low.toNat := by
  rw [BitVec.toNat_append, ← Nat.shiftLeft_add_eq_or_of_lt low.isLt, Nat.shiftLeft_eq]

theorem readReg_status_toNat (s : State) :
    (readReg s .status).toNat = (errCode s.err).toNat + 16 * s.run.toNat + 32 * s.out.toNat := by
  simp only [readReg, statusWord, toNat_append_eq_add, BitVec.toNat_ofBool, BitVec.toNat_zero]
  omega

theorem readReg_tap {s : State} {k : Nat} (h : k < s.tap.length) : s.tap[k]? = some (readReg s (.tap k)) := by
  rw [readReg, List.getD_eq_getElem _ _ h, List.getElem?_eq_getElem h]

end Sys2Proof.Machine
end

section
/-! PROOFS. The statements about errors and about register reads (60_exceptions.md). -/

namespace Sys2Proof.Machine

/-- Settles O38: a command completes with the code `OK`, or it raises an error in the state it started from. -/
theorem failedCommandChangesNothingElse : Obligations.FailedCommandChangesNothingElse := by
  intro i s
  exact ⟨_, exec_eq_commandAt i s, (commandAt_ends Config.params i s).eq_of_err_ne_ok⟩

/-- Settles O46: the number names one register, and the value answered is what `readReg` gives for it. -/
theorem registerReads : Obligations.RegisterReads := by
  intro s r rest hpending hlen hgap hr
  obtain ⟨x, hreg⟩ := exists_regOfNumber hgap hr
  have hread {n : Nat} (y : Reg) (hn : regOfNumber Config.params n = some y) (hrn : r = n) :
      readReg s x = readReg s y :=
    congrArg (readReg s) (Option.some.inj (hreg.symm.trans (hrn ▸ hn)))
  refine ⟨readReg s x, step_readReg hpending hreg, hread .cmd rfl, fun hstatus => ?_, hread .errinfo rfl,
    hread .conv rfl, hread .degree rfl, hread .ntap rfl, hread .seed rfl, hread .state rfl, hread .len rfl,
    hread .kslen rfl, hread .dblen rfl, hread .txlen rfl, hread .period rfl, hread .maxper rfl, fun hcls => ?_,
    fun htap => ?_⟩
  · have hcode {e : ErrCode} (h : s.err = e) : (errCode s.err).toNat = (errCode e).toNat := by rw [h]
    rw [hread .status rfl hstatus]
    exact ⟨_, readReg_status_toNat s, hcode, hcode, hcode, hcode, hcode, hcode, hcode, hcode⟩
  · have hcode {c : ClassTag} (h : s.cls = c) : readReg s .cls = classCode c := congrArg classCode h
    rw [hread .cls rfl hcls]
    exact ⟨hcode, hcode, hcode, hcode⟩
  · rw [hread _ (regOfNumber_tap htap hr) rfl]
    exact readReg_tap (by omega)

end Sys2Proof.Machine
end

section
/-! PROOFS. The statement about reset (70_reset_and_hazards.md R180, 10_state.md R39), and what a read finds after it. -/

namespace Sys2Proof.Machine

theorem readReg_resetBlock (p : Params) (s : State) (x : Reg) : readReg (resetBlock p s) x = 0#32 := by
  cases x with
  | status => exact BitVec.eq_of_toNat_eq (readReg_status_toNat (resetBlock p s))
  | tap k =>
    rw [readReg, resetBlock_tap, List.getD_eq_getElem?_getD, List.getElem?_getD_replicate_default_eq]
  | _ => rfl

/-- Settles O49: the state answered is `resetBlock`, where every register and every cell reads 0. -/
theorem resetClearsTheBlock : Obligations.ResetClearsTheBlock := by
  intro s rest hpending
  refine ⟨resetBlock Config.params { s with pending := rest }, ?_, rfl, readReg_resetBlock _ _, fun a => ?_⟩
  · rw [step_access s .reset rest hpending, access_reset]
  · simp only [resetBlock_ks, resetBlock_db, resetBlock_tx, Memory.read_nil, and_self]

end Sys2Proof.Machine
end

section
/-! SUPPORT. The step rules bit by bit: the feedback as an XOR over the taps (40_lfsr_engine.md R95, R97, R99), the bits
of the state after a step, and that a state of `n` bits steps to one (R107). -/

namespace Sys2Proof.Machine

theorem xorAll_cons (b : Bit) (bits : List Bit) : xorAll (b :: bits) = b ^^^ xorAll bits := rfl

theorem xorAll_cons_cons_same (b : Bit) (bits : List Bit) : xorAll (b :: b :: bits) = xorAll bits := by
  rw [xorAll_cons, xorAll_cons, ← BitVec.xor_assoc, BitVec.xor_self, BitVec.zero_xor]

theorem xorAll_perm {bits bits' : List Bit} (h : bits.Perm bits') : xorAll bits = xorAll bits' := by
  refine h.foldr_eq' (fun x _ y _ acc => ?_) 0#1
  rw [← BitVec.xor_assoc, ← BitVec.xor_assoc, BitVec.xor_comm x y]

theorem xorAll_map_zero {taps : List Nat} {f : Nat → Bit} (h : ∀ t ∈ taps, f t = 0#1) : xorAll (taps.map f) = 0#1 := by
  induction taps with
  | nil => rfl
  | cons t taps ih =>
    obtain ⟨ht, htaps⟩ := List.forall_mem_cons.mp h
    rw [List.map_cons, xorAll_cons, ht, ih htaps, BitVec.zero_xor]

theorem maxTap_perm {taps taps' : List Nat} (h : taps.Perm taps') : maxTap taps = maxTap taps' :=
  h.foldr_eq' (fun x _ y _ acc => Nat.max_left_comm y x acc) 0

theorem maxTap_le {taps : List Nat} {n : Nat} (h : ∀ t ∈ taps, t ≤ n) : maxTap taps ≤ n := by
  cases taps with
  | nil => exact Nat.zero_le n
  | cons t taps => exact h _ (maxTap_mem (List.cons_ne_nil t taps))

theorem maxTap_eq {taps : List Nat} {n : Nat} (hmem : n ∈ taps) (h : ∀ t ∈ taps, t ≤ n) : maxTap taps = n :=
  Nat.le_antisymm (maxTap_le h) (le_maxTap hmem)

theorem bitAt_inj {x y : Word} (h : ∀ i < 32, bitAt x i = bitAt y i) : x = y := by
  refine BitVec.eq_of_getLsbD_eq fun i hlt => ?_
  have hbit : (bitAt x i == 1#1) = (bitAt y i == 1#1) := by rw [h i hlt]
  rwa [bitAt_beq_one, bitAt_beq_one, BitVec.testBit_toNat, BitVec.testBit_toNat] at hbit

@[simp] theorem bitAt_zero_word (i : Nat) : bitAt 0#32 i = 0#1 := by
  simp [bitAt]

theorem bitAt_of_width {x : Word} {n i : Nat} (h : x.toNat < 2 ^ n) (hi : n ≤ i) : bitAt x i = 0#1 := by
  have hlt : x.toNat < 2 ^ i := Nat.lt_of_lt_of_le h (Nat.pow_le_pow_right Nat.two_pos hi)
  rw [bitAt, ← BitVec.testBit_toNat, Nat.testBit_lt_two_pow hlt]
  rfl

theorem width_of_bitAt {x : Word} {n : Nat} (h : ∀ i, n ≤ i → bitAt x i = 0#1) : x.toNat < 2 ^ n := by
  refine Nat.lt_pow_two_of_testBit x.toNat fun i hi => ?_
  have hbit := h i hi
  rw [← bitAt_beq_one, hbit]
  rfl

theorem bitAt_or (x y : Word) (i : Nat) : bitAt (x ||| y) i = bitAt x i ||| bitAt y i := by
  cases hx : x.getLsbD i <;> cases hy : y.getLsbD i <;> simp [bitAt, hx, hy]

theorem bitAt_ushiftRight (x : Word) (k i : Nat) : bitAt (x >>> k) i = bitAt x (k + i) := by
  simp [bitAt]

theorem bitAt_bitToWord (b : Bit) (i : Nat) : bitAt (bitToWord b) i = if i = 0 then b else 0#1 := by
  revert b
  cases i with
  | zero => decide
  | succ i => simp [bitAt, bitToWord, BitVec.getLsbD_setWidth]

theorem bitAt_shiftLeft (x : Word) {k i : Nat} (hi : i < 32) :
    bitAt (x <<< k) i = if i < k then 0#1 else bitAt x (i - k) := by
  rw [bitAt, BitVec.getLsbD_shiftLeft]
  by_cases hk : i < k
  · simp [hk]
  · simp [hi, hk, bitAt]

theorem bitAt_and_lowMask (x : Word) {n : Nat} (hn : n ≤ 32) (i : Nat) :
    bitAt (x &&& lowMask n) i = if i < n then bitAt x i else 0#1 := by
  have hmask : (lowMask n).getLsbD i = decide (i < n) := by
    have hpow : 2 ^ n ≤ 2 ^ 32 := Nat.pow_le_pow_right Nat.two_pos hn
    have hfits : 2 ^ n - 1 < 2 ^ 32 := by omega
    rw [lowMask, ← BitVec.testBit_toNat, BitVec.toNat_ofNat, Nat.mod_eq_of_lt hfits, Nat.testBit_two_pow_sub_one]
  by_cases hi : i < n <;> simp [bitAt, hmask, hi]

/-- A bit of the state after a PREPEND step: the feedback enters at bit 0 and the others move up by one. -/
theorem bitAt_stepPrepend {n : Nat} (hn : n ≤ 32) (taps : List Nat) (s : Word) (i : Nat) :
    bitAt (stepPrepend n taps s).1 i =
      if i < n then (if i = 0 then xorAll (taps.map (bitAt s)) else bitAt s (i - 1)) else 0#1 := by
  rw [stepPrepend, bitAt_and_lowMask _ hn]
  split
  case isFalse => rfl
  case isTrue hi =>
    have hi' : i < 32 := Nat.lt_of_lt_of_le hi hn
    rw [bitAt_or, bitAt_shiftLeft s hi', bitAt_bitToWord]
    cases i with
    | zero => exact BitVec.zero_or
    | succ i => simp

/-- A bit of the state after a TOPFB step: the others move down by one and the feedback joins bit `maxTap - 1`. -/
theorem bitAt_stepTopfb (taps : List Nat) (s : Word) {i : Nat} (hi : i < 32) :
    bitAt (stepTopfb taps s).1 i =
      bitAt s (i + 1) ||| (if i = maxTap taps - 1 then xorAll (taps.map (fun t => bitAt s (t - 1))) else 0#1) := by
  rw [stepTopfb, bitAt_or, bitAt_ushiftRight, Nat.add_comm, bitAt_shiftLeft _ hi, bitAt_bitToWord]
  congr 1
  obtain h | rfl | h := Nat.lt_trichotomy i (maxTap taps - 1)
  · rw [if_pos h, if_neg (by omega)]
  · simp
  · rw [if_neg (by omega), if_neg (by omega), if_neg (by omega)]

theorem stepPrepend_width {n : Nat} (hn : n ≤ 32) (taps : List Nat) (s : Word) :
    (stepPrepend n taps s).1.toNat < 2 ^ n :=
  width_of_bitAt fun i hi => by rw [bitAt_stepPrepend hn, if_neg (by omega)]

theorem stepTopfb_width {n : Nat} (hpos : 1 ≤ n) {taps : List Nat} (htaps : ∀ t ∈ taps, t ≤ n) {s : Word}
    (hs : s.toNat < 2 ^ n) : (stepTopfb taps s).1.toNat < 2 ^ n := by
  refine width_of_bitAt fun i hi => ?_
  have hmax : maxTap taps ≤ n := maxTap_le htaps
  by_cases hi32 : i < 32
  · rw [bitAt_stepTopfb taps s hi32, bitAt_of_width hs (by omega), if_neg (by omega)]
    rfl
  · exact bitAt_of_width (BitVec.isLt _) (Nat.le_of_not_lt hi32)

/-- A step of a configuration in range keeps the state within the degree (40_lfsr_engine.md R107). -/
theorem step_width {c : LfsrConfig} (hc : c.Valid) {s : Word} (hs : s.toNat < 2 ^ c.degree) :
    (c.step s).1.toNat < 2 ^ c.degree := by
  obtain ⟨conv, n, taps, seed⟩ := c
  obtain ⟨⟨hpos, hn⟩, _, htaps, _⟩ := hc
  cases conv with
  | prepend => exact stepPrepend_width hn taps s
  | topfb => exact stepTopfb_width hpos (fun t ht => (htaps t ht).2) hs

theorem stateAfter_width {c : LfsrConfig} (hc : c.Valid) (i : Nat) : (c.stateAfter i).toNat < 2 ^ c.degree := by
  induction i with
  | zero =>
    obtain ⟨_, _, _, hseed⟩ := hc
    exact hseed
  | succ i ih => exact step_width hc ih

/-- The zero state is a fixed point (40_lfsr_engine.md R106). -/
theorem step_zero (c : LfsrConfig) : c.step 0#32 = (0#32, 0#1) := by
  obtain ⟨conv, n, taps, seed⟩ := c
  cases conv with
  | prepend =>
    have hfeedback : xorAll (taps.map (fun t => bitAt 0#32 t)) = 0#1 := xorAll_map_zero fun t _ => bitAt_zero_word t
    simp only [LfsrConfig.step, stepPrepend, hfeedback]
    simp [bitToWord]
  | topfb =>
    have hfeedback : xorAll (taps.map (fun t => bitAt 0#32 (t - 1))) = 0#1 :=
      xorAll_map_zero fun t _ => bitAt_zero_word (t - 1)
    simp only [LfsrConfig.step, stepTopfb, hfeedback]
    simp [bitToWord]

theorem runFrom_zero (c : LfsrConfig) (k : Nat) : c.runFrom k 0#32 = (0#32, List.replicate k 0#1) := by
  induction k with
  | zero => rfl
  | succ k ih => simp [LfsrConfig.runFrom, step_zero, ih, List.replicate_succ]

theorem step_perm (c : LfsrConfig) {taps : List Nat} (h : c.taps.Perm taps) (s : Word) :
    LfsrConfig.step { c with taps := taps } s = c.step s := by
  obtain ⟨conv, n, taps', seed⟩ := c
  cases conv with
  | prepend => simp only [LfsrConfig.step, stepPrepend, xorAll_perm (h.map _)]
  | topfb => simp only [LfsrConfig.step, stepTopfb, xorAll_perm (h.map _), maxTap_perm h]

theorem stepPrepend_cons_cons_same (n t : Nat) (taps : List Nat) (s : Word) :
    stepPrepend n (t :: t :: taps) s = stepPrepend n taps s := by
  simp only [stepPrepend, List.map_cons, xorAll_cons_cons_same]

theorem stepTopfb_cons_cons_same {t : Nat} {taps : List Nat} (s : Word) (h : t ≤ maxTap taps) :
    stepTopfb (t :: t :: taps) s = stepTopfb taps s := by
  have hmax : maxTap (t :: t :: taps) = maxTap taps := by
    rw [maxTap, List.foldr_cons, List.foldr_cons, ← maxTap, max_eq_right h, max_eq_right h]
  simp only [stepTopfb, List.map_cons, xorAll_cons_cons_same, hmax]

theorem oddCount_cons_cons_same (t : Nat) (taps : List Nat) (readsOne : Nat → Bool) :
    oddCount (t :: t :: taps) readsOne = oddCount taps readsOne := by
  simp only [oddCount, List.countP_cons]
  omega

end Sys2Proof.Machine
end

section
/-! PROOFS. The statements about one step of the Engine (40_lfsr_engine.md R96, R99, R106, R107). -/

namespace Sys2Proof.Machine

/-- Settles O10: bit `i` of the register is element `i` of the list, before the step and after it. -/
theorem prependStepOnRegisterIsStepOnList : Obligations.PrependStepOnRegisterIsStepOnList := by
  intro n taps s hpos hn htaps
  have hget {i : Nat} (hi : i < n) : (stateList n s).getD i 0#1 = bitAt s i := by simp [stateList, hi]
  have hlen : (stateList n s).length = n := by simp [stateList]
  refine ⟨?_, ?_, stepPrepend_width hn taps s⟩
  · have hfeedback : taps.map (fun t => (stateList n s).getD t 0#1) = taps.map (bitAt s) :=
      List.map_congr_left fun t ht => hget (htaps t ht)
    refine List.ext_getElem (by simp [stateList, stepList]; omega) fun i hi _ => ?_
    have hin : i < n := by simpa [stateList] using hi
    have hbit : (stateList n (stepPrepend n taps s).1)[i] = bitAt (stepPrepend n taps s).1 i := by simp [stateList]
    rw [hbit, bitAt_stepPrepend hn, if_pos hin]
    cases i with
    | zero => exact (congrArg xorAll hfeedback).symm
    | succ i => simp [stepList, stateList]
  · have hlast : (stateList n s).getLastD 0#1 = (stateList n s).getD (n - 1) 0#1 := by
      rw [List.getLastD_eq_getLast?, List.getLast?_eq_getElem?, hlen, List.getD_eq_getElem?_getD]
    exact ((hlast.trans (hget (by omega))).symm :)

/-- Settles O12: XOR and maximum do not see the order of the list, and an entry listed twice cancels in the XOR. -/
theorem tapOrderAndMultiplicity : Obligations.TapOrderAndMultiplicity := by
  refine ⟨fun c ts s h => step_perm c h s, stepPrepend_cons_cons_same, fun t u taps s hu htu => ?_,
    fun t taps s ht htaps => ⟨?_, stepTopfb_output_toNat _ s⟩⟩
  · exact stepTopfb_cons_cons_same s (htu.trans (le_maxTap hu))
  · have hmax : maxTap (t :: t :: taps) = t := by
      refine maxTap_eq List.mem_cons_self fun u hu => ?_
      obtain rfl | rfl | hu : u = t ∨ u = t ∨ u ∈ taps := by simpa using hu
      · exact Nat.le_refl u
      · exact Nat.le_refl u
      · exact Nat.le_of_lt (htaps u hu)
    rw [stepTopfb_state_toNat s (hmax.trans_le ht), hmax, oddCount_cons_cons_same]

/-- Settles O13: by the two step rules, bit by bit. -/
theorem stepKeepsTheWidth : Obligations.StepKeepsTheWidth := fun _ _ hc hs => step_width hc hs

/-- Settles O14: no tap reads a 1 in the zero state, and a run from a fixed point emits the same bit for ever. -/
theorem zeroStateIsAFixedPoint : Obligations.ZeroStateIsAFixedPoint := by
  refine ⟨step_zero, fun c length hseed => ?_⟩
  rw [LfsrConfig.generate, hseed, runFrom_zero]

end Sys2Proof.Machine
end

section
/-! SUPPORT. What a command can do, at any sizes and said once for all: the failures it can raise, each with the check
that raises it (60_exceptions.md R164, R165), and its effect where it completes. -/

namespace Sys2Proof.Machine

/-- The failures a command can raise from `s` at the sizes `p` (60_exceptions.md R164), each with its cause. -/
inductive Raises (p : Params) (s : State) : Instr → Failure → Prop where
  | initConfig {f : Failure} (h : validate p s = some f) : Raises p s .init f
  | genConfig {f : Failure} (h : validate p s = some f) : Raises p s .gen f
  | noRun (h : s.run = false) : Raises p s .step (invalidConfig 6 0)
  | ksFull (h : p.lmax ≤ s.kslen.toNat) : Raises p s .step (capacityExceeded s.kslen)
  | lenLong (h : p.lmax < s.len.toNat) : Raises p s .gen (capacityExceeded s.len)
  | kslenLong {i : Instr} (hi : i ∈ [.period, .classifyExact, .classifyTwoval, .xor, .enc, .dec])
      (h : p.lmax < s.kslen.toNat) : Raises p s i (capacityExceeded s.kslen)
  | dblenLong {i : Instr} (hi : i ∈ [.b2t, .xor, .dec]) (h : p.lmax < s.dblen.toNat) :
      Raises p s i (capacityExceeded s.dblen)
  | txlenLong {i : Instr} (hi : i ∈ [.t2b, .enc]) (h : p.cmax < s.txlen.toNat) :
      Raises p s i (capacityExceeded s.txlen)
  | emptySequence {i : Instr} (hi : i ∈ [.period, .classifyExact, .classifyTwoval]) (h : s.kslen = 0#32) :
      Raises p s i invalidSequence
  | degree {i : Instr} (hi : i ∈ [.classifyExact, .classifyTwoval])
      (h : s.degree.toNat < 1 ∨ s.degree.toNat > p.nmax) : Raises p s i (invalidConfig 2 0)
  | character {i : Instr} {j : Nat} (hi : i ∈ [.t2b, .enc]) (htxlen : s.txlen.toNat ≤ p.cmax)
      (h : (txSeq s).findIdx? (fun c => decide (c.toNat > 255)) = some j) : Raises p s i (encodingError j)
  | bitCount {i : Instr} (hi : i ∈ [.b2t, .dec]) (hdblen : s.dblen.toNat ≤ p.lmax) (h : s.dblen.toNat % 8 ≠ 0) :
      Raises p s i (malformedBits s.dblen.toNat)
  | dataMismatch {i : Instr} (hi : i ∈ [.xor, .dec]) (hkslen : s.kslen.toNat ≤ p.lmax)
      (h : s.dblen.toNat ≠ s.kslen.toNat) : Raises p s i (lengthMismatch s.kslen.toNat)
  | textMismatch (hkslen : s.kslen.toNat ≤ p.lmax) (h : 8 * s.txlen.toNat ≠ s.kslen.toNat) :
      Raises p s .enc (lengthMismatch s.kslen.toNat)

/-- The effect of a command from `s` at the sizes `p`, before `done`: what it writes, and what it has checked. Of the
blocks the codec writes it says the length; what they hold, the lemmas about its pure functions say. -/
inductive Effect (p : Params) (s : State) : Instr → State → Prop where
  | init (h : ConfigValid p s) : Effect p s .init (openRun { s with lfsr := s.seed, kslen := 0#32 })
  | step (hrun : s.run = true) (h : s.kslen.toNat < p.lmax) :
      Effect p s .step (setOut ((configOf s).step s.lfsr).2
        { s with
          ks := s.ks.write s.kslen.toNat [((configOf s).step s.lfsr).2]
          kslen := s.kslen + 1#32
          lfsr := ((configOf s).step s.lfsr).1 })
  | gen (h : ConfigValid p s) (hlen : s.len.toNat ≤ p.lmax) :
      Effect p s .gen (setOut (((configOf s).generate s.len.toNat).getLastD s.out) (openRun
        { s with
          ks := s.ks.write 0 ((configOf s).generate s.len.toNat)
          lfsr := (configOf s).stateAfter s.len.toNat
          kslen := s.len }))
  | period (hne : s.kslen ≠ 0#32) (h : s.kslen.toNat ≤ p.lmax) :
      Effect p s .period { s with period := BitVec.ofNat 32 (period (ksSeq s)) }
  | classify (st : Strategy) (hne : s.kslen ≠ 0#32) (h : s.kslen.toNat ≤ p.lmax) (hlo : 1 ≤ s.degree.toNat)
      (hhi : s.degree.toNat ≤ p.nmax) :
      Effect p s (classifyCommand st)
        { s with
          period := BitVec.ofNat 32 (period (ksSeq s))
          maxper := BitVec.ofNat 32 (maxPeriod s.degree.toNat)
          cls := classify st (ksSeq s) s.degree.toNat }
  | toDb {i : Instr} {bits : List Bit} (hi : i ∈ [.t2b, .enc]) (htxlen : s.txlen.toNat ≤ p.cmax)
      (hlen : bits.length = 8 * s.txlen.toNat) :
      Effect p s i { s with db := s.db.write 0 bits, dblen := BitVec.ofNat 32 bits.length }
  | inDb {bits : List Bit} (h : s.dblen.toNat ≤ p.lmax) (hlen : bits.length = s.dblen.toNat) :
      Effect p s .xor { s with db := s.db.write 0 bits }
  | toTx {i : Instr} {text : List Word} (hi : i ∈ [.b2t, .dec]) (h : s.dblen.toNat ≤ p.lmax)
      (hlen : text.length = s.dblen.toNat / 8) :
      Effect p s i { s with tx := s.tx.write 0 text, txlen := BitVec.ofNat 32 text.length }

/-- A command led from `s` to the state given: it raised one of its failures, or it completed with its effect. -/
inductive Leads (p : Params) (s : State) (i : Instr) : State → Prop where
  | raised {f : Failure} (h : Raises p s i f) : Leads p s i (raise f s)
  | completed {u : State} (h : Effect p s i u) : Leads p s i (done u)

section
variable (p : Params) (s : State)

theorem cmdInit_leads : Leads p s .init (cmdInit p s) := by
  obtain ⟨f, hf, h⟩ | ⟨hnone, h⟩ := cmdInit_cases p s
  · exact h ▸ .raised (.initConfig hf)
  · exact h ▸ .completed (.init (configValid_of_validate_eq_none hnone))

theorem cmdStep_leads : Leads p s .step (cmdStep p s) := by
  obtain ⟨hrun, h⟩ | ⟨_, hfull, h⟩ | ⟨hrun, hfits, h⟩ := cmdStep_cases p s
  · exact h ▸ .raised (.noRun hrun)
  · exact h ▸ .raised (.ksFull hfull)
  · exact h ▸ .completed (.step hrun hfits)

theorem cmdGen_leads : Leads p s .gen (cmdGen p s) := by
  have hrun : (configOf s).runFrom s.len.toNat s.seed =
      ((configOf s).stateAfter s.len.toNat, (configOf s).generate s.len.toNat) :=
    runFrom_seed_eq_generate (configOf s) s.len.toNat
  obtain ⟨f, hf, h⟩ | ⟨_, hlong, h⟩ | ⟨hnone, hfits, h⟩ := cmdGen_cases p s
  · exact h ▸ .raised (.genConfig hf)
  · exact h ▸ .raised (.lenLong hlong)
  · rw [hrun] at h
    exact h ▸ .completed (.gen (configValid_of_validate_eq_none hnone) hfits)

theorem cmdPeriod_leads : Leads p s .period (cmdPeriod p s) := by
  obtain ⟨hlong, h⟩ | ⟨hempty, h⟩ | ⟨hne, hfits, h⟩ := cmdPeriod_cases p s
  · exact h ▸ .raised (.kslenLong (by simp) hlong)
  · exact h ▸ .raised (.emptySequence (by simp) hempty)
  · exact h ▸ .completed (.period hne hfits)

theorem cmdClassify_leads (st : Strategy) : Leads p s (classifyCommand st) (cmdClassify st p s) := by
  obtain ⟨hlong, h⟩ | ⟨hempty, h⟩ | ⟨_, _, hdegree, h⟩ | ⟨hne, hfits, hlo, hhi, h⟩ := cmdClassify_cases st p s
  · exact h ▸ .raised (.kslenLong (by cases st <;> simp [classifyCommand]) hlong)
  · exact h ▸ .raised (.emptySequence (by cases st <;> simp [classifyCommand]) hempty)
  · exact h ▸ .raised (.degree (by cases st <;> simp [classifyCommand]) hdegree)
  · exact h ▸ .completed (.classify st hne hfits hlo hhi)

theorem cmdT2b_leads : Leads p s .t2b (cmdT2b p s) := by
  obtain ⟨hlong, h⟩ | ⟨hfits, h⟩ := cmdT2b_cases p s
  · exact h ▸ .raised (.txlenLong (by simp) hlong)
  · obtain ⟨j, hj, htext⟩ | ⟨_, htext⟩ := textToBits_cases (txSeq s)
    · rw [h, htext]
      exact .raised (.character (by simp) hfits hj)
    · rw [h, htext]
      exact .completed (.toDb (by simp) hfits textBits_length)

theorem cmdB2t_leads : Leads p s .b2t (cmdB2t p s) := by
  obtain ⟨hlong, h⟩ | ⟨hfits, h⟩ := cmdB2t_cases p s
  · exact h ▸ .raised (.dblenLong (by simp) hlong)
  · obtain ⟨hbad, hbits⟩ | ⟨_, hbits⟩ := bitsToText_cases (dbSeq s)
    · rw [h, hbits, dbSeq_length]
      exact .raised (.bitCount (by simp) hfits (by rwa [dbSeq_length] at hbad))
    · rw [h, hbits]
      exact .completed (.toTx (by simp) hfits (by simp))

theorem cmdXor_leads : Leads p s .xor (cmdXor p s) := by
  obtain ⟨hlong, h⟩ | ⟨_, hlong, h⟩ | ⟨f, _, hkslen, herror, h⟩ | ⟨bits, hdblen, _, hok, h⟩ := cmdXor_cases p s
  · exact h ▸ .raised (.dblenLong (by simp) hlong)
  · exact h ▸ .raised (.kslenLong (by simp) hlong)
  · obtain ⟨hne, hmismatch⟩ | ⟨_, hok⟩ := xorTransform_cases (dbSeq s) (ksSeq s)
    · obtain rfl := Except.error.inj (hmismatch.symm.trans herror)
      rw [h, ksSeq_length]
      exact .raised (.dataMismatch (by simp) hkslen (by simpa using hne))
    · exact absurd (hok.symm.trans herror) (by simp)
  · exact h ▸ .completed (.inDb hdblen ((xorTransform_length hok).trans (dbSeq_length s)))

theorem cmdEnc_leads : Leads p s .enc (cmdEnc p s) := by
  obtain ⟨hlong, h⟩ | ⟨_, hlong, h⟩ | ⟨htxlen, hkslen, h⟩ := cmdEnc_cases p s
  · exact h ▸ .raised (.txlenLong (by simp) hlong)
  · exact h ▸ .raised (.kslenLong (by simp) hlong)
  · obtain ⟨j, hj, htext⟩ | ⟨_, htext⟩ := textToBits_cases (txSeq s)
    · rw [h, encrypt_of_error htext]
      exact .raised (.character (by simp) htxlen hj)
    · rw [h, encrypt_of_ok htext]
      obtain ⟨hne, hxor⟩ | ⟨_, hxor⟩ := xorTransform_cases (textBits s) (ksSeq s)
      · rw [textBits_length, ksSeq_length] at hne
        rw [← textBits, hxor, ksSeq_length]
        exact .raised (.textMismatch hkslen hne)
      · rw [← textBits, hxor]
        exact .completed (.toDb (by simp) htxlen ((xorTransform_length hxor).trans textBits_length))

theorem cmdDec_leads : Leads p s .dec (cmdDec p s) := by
  obtain ⟨hlong, h⟩ | ⟨_, hlong, h⟩ | ⟨hdblen, hkslen, h⟩ := cmdDec_cases p s
  · exact h ▸ .raised (.dblenLong (by simp) hlong)
  · exact h ▸ .raised (.kslenLong (by simp) hlong)
  · obtain ⟨hne, hxor⟩ | ⟨_, hxor⟩ := xorTransform_cases (dbSeq s) (ksSeq s)
    · rw [h, decrypt_of_error hxor, ksSeq_length]
      exact .raised (.dataMismatch (by simp) hkslen (by simpa using hne))
    · have hlen : (xorBits (dbSeq s) (ksSeq s)).length = s.dblen.toNat :=
        (xorTransform_length hxor).trans (dbSeq_length s)
      rw [h, decrypt_of_ok hxor, ← xorBits]
      obtain ⟨hbad, hbits⟩ | ⟨_, hbits⟩ := bitsToText_cases (xorBits (dbSeq s) (ksSeq s))
      · rw [hbits, hlen]
        exact .raised (.bitCount (by simp) hdblen (hlen ▸ hbad))
      · rw [hbits, hlen]
        exact .completed (.toTx (by simp) hdblen (by simp))

/-- Every command raises one of its failures or completes with its effect. -/
theorem commandAt_leads (i : Instr) : Leads p s i (commandAt p i s) := by
  cases i with
  | init => exact cmdInit_leads p s
  | step => exact cmdStep_leads p s
  | gen => exact cmdGen_leads p s
  | period => exact cmdPeriod_leads p s
  | classifyExact => exact cmdClassify_leads p s .exact
  | classifyTwoval => exact cmdClassify_leads p s .twoval
  | t2b => exact cmdT2b_leads p s
  | b2t => exact cmdB2t_leads p s
  | xor => exact cmdXor_leads p s
  | enc => exact cmdEnc_leads p s
  | dec => exact cmdDec_leads p s

end

end Sys2Proof.Machine
end

section
/-! SUPPORT. The invariant is kept: the context of every failure fits its code (60_exceptions.md R165), the effect of
every command keeps the buffers, `S`, the run and the measurements in their bounds, and so does every other access. -/

namespace Sys2Proof.Machine

theorem invalidConfig_info_toNat {sub idx : Nat} (hsub : sub ≤ 6) (hidx : idx < 256) :
    (invalidConfig sub idx).info.toNat = sub * 2 ^ 24 + idx := by
  have hhigh : (BitVec.ofNat 32 sub <<< 24).toNat = sub * 2 ^ 24 := by
    rw [BitVec.toNat_shiftLeft, BitVec.toNat_ofNat, Nat.shiftLeft_eq]
    omega
  have hlow : (BitVec.ofNat 32 idx).toNat = idx := Nat.mod_eq_of_lt (by omega)
  rw [invalidConfig, BitVec.toNat_or, hhigh, hlow, ← Nat.shiftLeft_eq, Nat.shiftLeft_add_eq_or_of_lt (by omega)]

theorem leastSeedBit_lt (n : Nat) (seed : Word) : leastSeedBit n seed < 32 := by
  rw [leastSeedBit]
  cases h : (List.range 32).find? (fun i => decide (n ≤ i) && seed.getLsbD i) with
  | none => decide
  | some i => exact List.mem_range.mp (List.mem_of_find?_eq_some h)

theorem tapsOf_length_le (s : State) : (tapsOf s).length ≤ s.ntap.toNat := by
  rw [tapsOf, List.length_map]
  exact List.length_take_le _ _

section
variable {p : Params} {s : State}

/-- Each failure of validation is `InvalidConfig` with a sub-cause and an index (60_exceptions.md R152). -/
theorem validate_eq_some {f : Failure} (htmax : p.tmax ≤ 255) (h : validate p s = some f) :
    ∃ sub idx, 1 ≤ sub ∧ sub ≤ 6 ∧ idx < 256 ∧ f = invalidConfig sub idx := by
  unfold validate at h
  split at h
  next => exact ⟨1, 0, by decide, by decide, by decide, (Option.some.inj h).symm⟩
  split at h
  next => exact ⟨2, 0, by decide, by decide, by decide, (Option.some.inj h).symm⟩
  split at h
  next => exact ⟨3, 0, by decide, by decide, by decide, (Option.some.inj h).symm⟩
  next hntap =>
  split at h
  next k hk =>
    have hlt : k < (tapsOf s).length := (List.findIdx?_eq_some_iff_getElem.mp hk).1
    have hle : (tapsOf s).length ≤ s.ntap.toNat := tapsOf_length_le s
    exact ⟨4, k, by decide, by decide, by omega, (Option.some.inj h).symm⟩
  next =>
  split at h
  next =>
    exact ⟨5, _, by decide, by decide, (leastSeedBit_lt _ _).trans (by decide), (Option.some.inj h).symm⟩
  next => cases h

theorem errinfoLegal_invalidConfig {sub idx : Nat} (hpos : 1 ≤ sub) (hsub : sub ≤ 6) (hidx : idx < 256) :
    ErrinfoLegal p (invalidConfig sub idx).code (invalidConfig sub idx).info := by
  have hinfo := invalidConfig_info_toNat hsub hidx
  have hcause : ((invalidConfig sub idx).info >>> 24).toNat = sub := by
    rw [BitVec.toNat_ushiftRight, hinfo, Nat.shiftRight_eq_div_pow]
    omega
  have hindex : ((invalidConfig sub idx).info.setWidth 24).toNat = idx := by
    rw [BitVec.toNat_setWidth, hinfo]
    omega
  exact ⟨hcause.symm ▸ hpos, hcause.symm ▸ hsub, hindex.symm ▸ hidx⟩

/-- The context of every failure of a command fits its code (60_exceptions.md R165). -/
theorem Raises.errinfoLegal (hp : p.Valid) {i : Instr} {f : Failure} (h : Raises p s i f) :
    ErrinfoLegal p f.code f.info := by
  obtain ⟨_, ⟨_, htmax⟩, ⟨hlmax, _⟩, hcmax⟩ := hp
  cases h with
  | initConfig h | genConfig h =>
    obtain ⟨sub, idx, hpos, hsub, hidx, rfl⟩ := validate_eq_some htmax h
    exact errinfoLegal_invalidConfig hpos hsub hidx
  | noRun => exact errinfoLegal_invalidConfig (by decide) (by decide) (by decide)
  | degree => exact errinfoLegal_invalidConfig (by decide) (by decide) (by decide)
  | ksFull h | lenLong h | kslenLong _ h | dblenLong _ h | txlenLong _ h =>
    simp only [capacityExceeded, ErrinfoLegal]
    omega
  | emptySequence => rfl
  | @character _ j _ htxlen h =>
    have hj : j < s.txlen.toNat := (txSeq_length s) ▸ (List.findIdx?_eq_some_iff_getElem.mp h).1
    have hword : (BitVec.ofNat 32 j).toNat = j := Nat.mod_eq_of_lt (hj.trans s.txlen.isLt)
    simp only [encodingError, ErrinfoLegal, hword]
    omega
  | bitCount _ hdblen h =>
    simp only [malformedBits, ErrinfoLegal, BitVec.ofNat_toNat, BitVec.setWidth_eq]
    exact ⟨hdblen, h⟩
  | dataMismatch _ hkslen | textMismatch hkslen =>
    simp only [lengthMismatch, ErrinfoLegal, BitVec.ofNat_toNat, BitVec.setWidth_eq]
    exact hkslen

theorem Inv.raise (h : Inv p s) {f : Failure} (hf : ErrinfoLegal p f.code f.info) : Inv p (raise f s) :=
  { h with errinfo_legal := hf }

theorem Inv.done (h : Inv p s) : Inv p (done s) := { h with errinfo_legal := rfl }

theorem Inv.withPending (h : Inv p s) (rest : List Access) : Inv p { s with pending := rest } := { h with }

theorem Inv.writeKs (h : Inv p s) {a : Nat} {bits : List Bit} (hcap : a + bits.length ≤ p.lmax) :
    Inv p { s with ks := s.ks.write a bits } :=
  { h with
    ks_wf := Memory.write_wf _ _ _ h.ks_wf
    ks_within := Memory.write_within _ _ _ _ h.ks_within hcap }

theorem Inv.writeDb (h : Inv p s) {a : Nat} {bits : List Bit} (hcap : a + bits.length ≤ p.lmax) :
    Inv p { s with db := s.db.write a bits } :=
  { h with
    db_wf := Memory.write_wf _ _ _ h.db_wf
    db_within := Memory.write_within _ _ _ _ h.db_within hcap }

theorem Inv.writeTx (h : Inv p s) {a : Nat} {text : List Word} (hcap : a + text.length ≤ p.cmax) :
    Inv p { s with tx := s.tx.write a text } :=
  { h with
    tx_wf := Memory.write_wf _ _ _ h.tx_wf
    tx_within := Memory.write_within _ _ _ _ h.tx_within hcap }

/-- A run is open over a valid configuration with a state of `DEGREE` bits. -/
theorem Inv.withRun (h : Inv p s) (hconfig : ConfigValid p s) {v : Word} (hv : v.toNat < 2 ^ s.degree.toNat) :
    Inv p (openRun { s with lfsr := v }) := by
  have ⟨_, ⟨_, hnmax⟩, _⟩ := hconfig
  exact { h with
    lfsr_width := Nat.lt_of_lt_of_le hv (Nat.pow_le_pow_right Nat.two_pos hnmax)
    run_valid := fun _ => ⟨hconfig, hv⟩ }

theorem seed_width_of_configValid (h : ConfigValid p s) : s.seed.toNat < 2 ^ s.degree.toNat := by
  obtain ⟨_, _, _, _, hseed⟩ := h
  have hzero : s.seed.toNat >>> s.degree.toNat = 0 := by
    rw [← BitVec.toNat_ushiftRight, hseed]
    rfl
  rw [Nat.shiftRight_eq_div_pow] at hzero
  exact Nat.lt_of_div_eq_zero (Nat.two_pow_pos _) hzero

/-- What the registers hold, where valid, is a configuration in the ranges of 40_lfsr_engine.md R91. -/
theorem configOf_valid (hp : p.Valid) (htap : s.tap.length = p.tmax) (h : ConfigValid p s) : (configOf s).Valid := by
  have hseed := seed_width_of_configValid h
  obtain ⟨⟨_, hnmax⟩, ⟨htmax, _⟩, _, _⟩ := hp
  obtain ⟨hconv, ⟨hlo, hhi⟩, ⟨hntap, _⟩, htaps, _⟩ := h
  have hne : tapsOf s ≠ [] := by
    refine List.length_pos_iff.mp ?_
    rw [tapsOf, List.length_map, List.length_take]
    omega
  refine ⟨⟨hlo, hhi.trans hnmax⟩, hne, fun t ht => ?_, hseed⟩
  obtain ⟨hprepend, htopfb⟩ := htaps t ht
  obtain hc | hc := hconv
  · simpa [configOf, conventionOf, hc] using hprepend hc
  · simpa [configOf, conventionOf, hc] using htopfb hc

theorem maxPeriod_pos {n : Nat} (h : 1 ≤ n) : 1 ≤ maxPeriod n := by
  have hpow : 2 ^ 1 ≤ 2 ^ n := Nat.pow_le_pow_right Nat.two_pos h
  rw [maxPeriod]
  omega

theorem classify_ne_none (st : Strategy) (q : List Bit) (n : Nat) : classify st q n ≠ .none := by
  cases st with
  | exact => simp only [classify, classifyExact]; split_ifs <;> simp
  | twoval => simp only [classify, classifyTwoval]; split_ifs <;> simp

/-- `PERIOD` of a sequence in `KS` is at least 1 and at most its length (41_period_classifier.md R111). -/
theorem period_ksSeq_bounds (hne : s.kslen ≠ 0#32) :
    1 ≤ (BitVec.ofNat 32 (period (ksSeq s))).toNat ∧
      (BitVec.ofNat 32 (period (ksSeq s))).toNat ≤ s.kslen.toNat := by
  have hpos : 1 ≤ s.kslen.toNat := Nat.pos_of_ne_zero fun hzero => hne (BitVec.eq_of_toNat_eq hzero)
  have hseq : ksSeq s ≠ [] := List.length_pos_iff.mp (hpos.trans_eq (ksSeq_length s).symm)
  rw [toNat_ofNat_period_ksSeq hpos]
  exact ⟨(isPeriodOf_period _).1, (period_le_length hseq).trans_eq (ksSeq_length s)⟩

theorem period_ksSeq_ne_zero (hne : s.kslen ≠ 0#32) : BitVec.ofNat 32 (period (ksSeq s)) ≠ 0#32 := by
  intro hzero
  have hpos := (period_ksSeq_bounds hne).1
  rw [hzero] at hpos
  exact absurd hpos (by decide)

theorem Inv.withPeriod (h : Inv p s) (hne : s.kslen ≠ 0#32) (hkslen : s.kslen.toNat ≤ p.lmax) :
    Inv p { s with period := BitVec.ofNat 32 (period (ksSeq s)) } :=
  { h with
    period_bound := (period_ksSeq_bounds hne).2.trans hkslen
    class_period := fun _ => period_ksSeq_ne_zero hne }

theorem Inv.withClass (h : Inv p s) (hnmax : p.nmax ≤ 32) {n : Nat} (hlo : 1 ≤ n) (hhi : n ≤ p.nmax)
    (hperiod : s.period ≠ 0#32) {c : ClassTag} (hc : c ≠ .none) :
    Inv p { s with maxper := BitVec.ofNat 32 (maxPeriod n), cls := c } := by
  have hpow : 2 ^ n ≤ 2 ^ p.nmax := Nat.pow_le_pow_right Nat.two_pos hhi
  have hpow32 : 2 ^ p.nmax ≤ 2 ^ 32 := Nat.pow_le_pow_right Nat.two_pos hnmax
  have hpos : 1 ≤ maxPeriod n := maxPeriod_pos hlo
  have hlt : maxPeriod n < 2 ^ p.nmax := by
    rw [maxPeriod]
    have := Nat.two_pow_pos n
    omega
  have hword : (BitVec.ofNat 32 (maxPeriod n)).toNat = maxPeriod n := Nat.mod_eq_of_lt (hlt.trans_le hpow32)
  have hne : BitVec.ofNat 32 (maxPeriod n) ≠ 0#32 := fun hzero => by
    rw [hzero] at hword
    exact absurd hpos (hword ▸ by decide)
  exact { h with
    maxper_bound := hword.symm ▸ hlt
    class_maxper := iff_of_false hc hne
    class_period := fun _ => hperiod }

/-- The effect of every command keeps the invariant. -/
theorem Effect.inv (hp : p.Valid) (h : Inv p s) {i : Instr} {u : State} (hu : Effect p s i u) : Inv p u := by
  have ⟨⟨_, hnmax⟩, _, _, hcmax⟩ := hp
  cases hu with
  | init hconfig => exact { h.withRun hconfig (seed_width_of_configValid hconfig) with }
  | step hrun hfits =>
    obtain ⟨hconfig, hlfsr⟩ := h.run_valid hrun
    have hnext : ((configOf s).step s.lfsr).1.toNat < 2 ^ s.degree.toNat :=
      step_width (configOf_valid hp h.tap_length hconfig) hlfsr
    have hks := h.writeKs (a := s.kslen.toNat) (bits := [((configOf s).step s.lfsr).2]) hfits
    exact { hks.withRun hconfig hnext with run_valid := fun _ => ⟨hconfig, hnext⟩ }
  | gen hconfig hlen =>
    have hstate : ((configOf s).stateAfter s.len.toNat).toNat < 2 ^ s.degree.toNat :=
      stateAfter_width (configOf_valid hp h.tap_length hconfig) _
    have hks := h.writeKs (a := 0) (bits := (configOf s).generate s.len.toNat) (by simpa using hlen)
    exact { hks.withRun hconfig hstate with }
  | period hne hkslen => exact h.withPeriod hne hkslen
  | classify st hne hkslen hlo hhi =>
    exact (h.withPeriod hne hkslen).withClass hnmax hlo hhi (period_ksSeq_ne_zero hne) (classify_ne_none st _ _)
  | toDb _ htxlen hlen => exact { h.writeDb (a := 0) (by omega) with }
  | inDb hdblen hlen => exact h.writeDb (a := 0) (by omega)
  | toTx _ hdblen hlen => exact { h.writeTx (a := 0) (by omega) with }

theorem Leads.inv (hp : p.Valid) (h : Inv p s) {i : Instr} {t : State} (ht : Leads p s i t) : Inv p t := by
  cases ht with
  | raised hf => exact h.raise (hf.errinfoLegal hp)
  | completed hu => exact (hu.inv hp h).done

theorem commandAt_inv (hp : p.Valid) (h : Inv p s) (i : Instr) : Inv p (commandAt p i s) :=
  (commandAt_leads p s i).inv hp h

theorem resetAt_inv (p : Params) : Inv p (State.resetAt p) where
  ks_wf := ⟨.nil, by simp [State.resetAt]⟩
  db_wf := ⟨.nil, by simp [State.resetAt]⟩
  tx_wf := ⟨.nil, by simp [State.resetAt]⟩
  ks_within := by simp [State.resetAt, Memory.within]
  db_within := by simp [State.resetAt, Memory.within]
  tx_within := by simp [State.resetAt, Memory.within]
  tap_length := List.length_replicate
  lfsr_width := Nat.two_pow_pos _
  run_valid := fun h => absurd h Bool.false_ne_true
  period_bound := Nat.zero_le _
  maxper_bound := Nat.two_pow_pos _
  class_maxper := iff_of_true rfl rfl
  class_period := fun h => absurd rfl h
  errinfo_legal := rfl

theorem resetBlock_inv (p : Params) (s : State) : Inv p (resetBlock p s) := { resetAt_inv p with }

/-- A configuration write closes the run, and no other clause speaks of what it stores. -/
theorem writeReg_inv (h : Inv p s) (v : Word) (x : Reg) : Inv p (writeReg v s x) := by
  cases x with
  | cmd | status | errinfo | state | period | maxper | cls => exact h
  | len | kslen | dblen | txlen => exact { h with }
  | conv | degree | ntap | seed => exact { h with run_valid := fun hrun => absurd hrun Bool.false_ne_true }
  | tap k =>
    exact { h with
      tap_length := (List.length_set ..).trans h.tap_length
      run_valid := fun hrun => absurd hrun Bool.false_ne_true }

theorem accessReg_inv {r : Nat} {k : Reg → State} (hk : ∀ x, Inv p (k x)) {t : State}
    (ht : accessReg p r k = .next t) : Inv p t := by
  obtain ⟨x, _, hx⟩ | ⟨_, hrefused⟩ := accessReg_cases p r k
  · cases hx.symm.trans ht
    exact hk x
  · cases hrefused.symm.trans ht

theorem accessCell_inv {b : Buffer} {a : Nat} {u t : State} (hu : a < capacity p b → Inv p u)
    (ht : accessCell p b a u = .next t) : Inv p t := by
  obtain ⟨ha, hnext⟩ | ⟨_, hrefused⟩ := accessCell_cases p b a u
  · cases hnext.symm.trans ht
    exact hu ha
  · cases hrefused.symm.trans ht

theorem command_inv {run : Meanings} (hrun : ∀ i t, run i s = .next t → Inv p t) (h : Inv p s) {w : Word}
    {t : State} (ht : command run w s = .next t) : Inv p t := by
  obtain ⟨i, _, hi⟩ | ⟨hillegal, hraise⟩ := command_cases run w s
  · exact hrun i t (hi.symm.trans ht)
  · cases hraise.symm.trans ht
    exact h.raise hillegal

theorem Inv.answer (h : Inv p s) (v : Word) : Inv p (answer v s) := { h with }

/-- Every access of the host keeps the invariant when the commands do. -/
theorem access_inv {run : Meanings} (hrun : ∀ i t, run i s = .next t → Inv p t) (h : Inv p s) {a : Access}
    {t : State} (ht : access p run s a = .next t) : Inv p t := by
  cases a with
  | readReg r => exact accessReg_inv (fun x => h.answer _) ht
  | writeReg r v =>
    by_cases hr : r = 0
    · subst hr
      exact command_inv hrun h ht
    · rw [access_writeReg v hr] at ht
      exact accessReg_inv (writeReg_inv h v) ht
  | readKs c | readDb c | readTx c => exact accessCell_inv (fun _ => h.answer _) ht
  | writeKs c v => exact accessCell_inv (fun hc => h.writeKs hc) ht
  | writeDb c v => exact accessCell_inv (fun hc => h.writeDb hc) ht
  | writeTx c v => exact accessCell_inv (fun hc => h.writeTx hc) ht
  | reset =>
    cases ht
    exact resetBlock_inv p s

theorem stepAt_inv (hp : p.Valid) (h : Inv p s) {t : State} (ht : stepAt p s = .next t) : Inv p t := by
  cases hpending : s.pending with
  | nil =>
    cases (stepAt_idle p s hpending).symm.trans ht
    exact h
  | cons a rest =>
    rw [stepAt_access p s a rest hpending] at ht
    have hrest := h.withPending rest
    refine access_inv (fun i u hu => ?_) hrest ht
    cases hu
    exact commandAt_inv hp hrest i

end

theorem step_eq_stepAt (s : State) : step s = stepAt Config.params s := by
  rw [step, exec_eq_execAt, stepAt]

end Sys2Proof.Machine
end

section
/-! PROOFS. The statements about the invariant and about the sizes (00_scope.md R7). -/

namespace Sys2Proof.Machine

/-- Settles O55: every failure's context fits its code, and every effect keeps the bounds. -/
theorem commandsKeepTheInvariantForAllSizes : Obligations.CommandsKeepTheInvariantForAllSizes :=
  fun _ i _ hp h => commandAt_inv hp h i

/-- Settles O54: an idle step changes nothing, and every access keeps the invariant because the commands do. -/
theorem stepKeepsTheInvariant : Obligations.StepKeepsTheInvariant :=
  ⟨fun s _ h ht => stepAt_inv params_valid h ((step_eq_stepAt s).symm.trans ht),
    fun _ _ _ hp h ht => stepAt_inv hp h ht⟩

/-- Settles O53: at any sizes, and so at those of `State.reset`. -/
theorem invariantAtReset : Obligations.InvariantAtReset := ⟨resetAt_inv Config.params, resetAt_inv⟩

/-- Settles O56: `exec` is `execAt` at the reference sizes, and with it the rest. -/
theorem stepIsTheStepAtTheReferenceSizes : Obligations.StepIsTheStepAtTheReferenceSizes :=
  ⟨step_eq_stepAt, fun i s => congrFun (congrFun exec_eq_execAt i) s, rfl⟩

end Sys2Proof.Machine
end

section
/-! SUPPORT. What a command's failure or completion says about the error registers (60_exceptions.md R164, R165) and
about `RUN` (10_state.md R23). -/

namespace Sys2Proof.Machine

section
variable {p : Params} {s t : State} {i : Instr} {f : Failure}

theorem leads_of_execAt (h : execAt p i s = .next t) : Leads p s i t := by
  cases h
  exact commandAt_leads p s i

theorem leads_of_exec (h : exec i s = .next t) : Leads Config.params s i t :=
  leads_of_execAt ((congrFun (congrFun exec_eq_execAt i) s).symm.trans h)

theorem Raises.mem_mayRaise (h : Raises p s i f) : f.code ∈ mayRaise i := by
  cases h with
  | initConfig h | genConfig h => simp [validate_code p s f h, mayRaise]
  | noRun | ksFull | lenLong => simp [mayRaise, invalidConfig, capacityExceeded]
  | kslenLong hi =>
    simp only [List.mem_cons, List.not_mem_nil, or_false] at hi
    obtain rfl | rfl | rfl | rfl | rfl | rfl := hi <;> simp [mayRaise, capacityExceeded]
  | dblenLong hi | emptySequence hi =>
    simp only [List.mem_cons, List.not_mem_nil, or_false] at hi
    obtain rfl | rfl | rfl := hi <;> simp [mayRaise, capacityExceeded, invalidSequence]
  | txlenLong hi | degree hi | character hi | bitCount hi | dataMismatch hi =>
    simp only [List.mem_cons, List.not_mem_nil, or_false] at hi
    obtain rfl | rfl := hi <;>
      simp [mayRaise, capacityExceeded, invalidConfig, encodingError, malformedBits, lengthMismatch]
  | textMismatch => simp [mayRaise, lengthMismatch]

/-- `CapacityExceeded` is raised for a length that exceeds, or at `STEP` reaches, a capacity (60_exceptions.md R167). -/
theorem Raises.exceeds (h : Raises p s i f) (hcode : f.code = .capacityExceeded) :
    ∃ length : Word, p.lmax ≤ length.toNat ∨ p.cmax < length.toNat := by
  cases h with
  | initConfig h | genConfig h => simp [validate_code p s f h] at hcode
  | noRun | emptySequence | degree | character | bitCount | dataMismatch | textMismatch => cases hcode
  | ksFull h => exact ⟨_, .inl h⟩
  | lenLong h | kslenLong _ h | dblenLong _ h => exact ⟨_, .inl (Nat.le_of_lt h)⟩
  | txlenLong _ h => exact ⟨_, .inr h⟩

theorem Leads.err_cases (h : Leads p s i t) : t.err = .ok ∨ t.err ∈ mayRaise i := by
  cases h with
  | raised hf => exact .inr hf.mem_mayRaise
  | completed => exact .inl rfl

theorem Leads.exceeds (h : Leads p s i t) (herr : t.err = .capacityExceeded) :
    ∃ length : Word, p.lmax ≤ length.toNat ∨ p.cmax < length.toNat := by
  cases h with
  | raised hf => exact hf.exceeds herr
  | completed => cases herr

end

/-- What `ERRINFO` holds beside a code, after the word `w` was written to `CMD` in state `s` (60_exceptions.md R165). -/
def ErrinfoTells (s : State) (w : Word) (code : ErrCode) (info : Word) : Prop :=
  match code with
  | .ok => info = 0#32
  | .invalidConfig => ∃ sub idx, 1 ≤ sub ∧ sub ≤ 6 ∧ idx < 256 ∧ info.toNat = sub * 2 ^ 24 + idx
  | .invalidSequence => info = 0#32
  | .lengthMismatch => info = s.kslen
  | .malformedBits => info = s.dblen
  | .encodingError => 255 < (s.tx.read info.toNat).toNat ∧ info.toNat < s.txlen.toNat ∧
      ∀ k < info.toNat, (s.tx.read k).toNat ≤ 255
  | .illegalCommand => info = w
  | .capacityExceeded => info = s.len ∨ info = s.kslen ∨ info = s.dblen ∨ info = s.txlen

section
variable {p : Params} {s : State} {w : Word}

theorem errinfoTells_invalidConfig {sub idx : Nat} (hpos : 1 ≤ sub) (hsub : sub ≤ 6) (hidx : idx < 256) :
    ErrinfoTells s w (invalidConfig sub idx).code (invalidConfig sub idx).info :=
  ⟨sub, idx, hpos, hsub, hidx, invalidConfig_info_toNat hsub hidx⟩

/-- The least offending character of `TX`, as `textToBits` finds it (42_cipher_codec.md R130). -/
theorem errinfoTells_encodingError {j : Nat} (h : (txSeq s).findIdx? (fun c => decide (c.toNat > 255)) = some j) :
    ErrinfoTells s w (encodingError j).code (encodingError j).info := by
  obtain ⟨hlt, hbad, hbefore⟩ := List.findIdx?_eq_some_iff_getElem.mp h
  have hj : j < s.txlen.toNat := (txSeq_length s) ▸ hlt
  have hget {k : Nat} (hk : k < (txSeq s).length) : (txSeq s)[k] = s.tx.read k := by simp [txSeq, Memory.readSeq]
  have hword : (BitVec.ofNat 32 j).toNat = j := Nat.mod_eq_of_lt (hj.trans s.txlen.isLt)
  simp only [ErrinfoTells, encodingError, hword]
  refine ⟨?_, hj, fun k hk => ?_⟩
  · rw [hget hlt] at hbad
    exact of_decide_eq_true hbad
  · have hk' := hbefore k hk
    rw [hget (hk.trans hlt)] at hk'
    exact Nat.not_lt.mp fun hgt => hk' (decide_eq_true hgt)

theorem Raises.errinfoTells (htmax : p.tmax ≤ 255) {i : Instr} {f : Failure} (h : Raises p s i f) :
    ErrinfoTells s w f.code f.info := by
  cases h with
  | initConfig h | genConfig h =>
    obtain ⟨sub, idx, hpos, hsub, hidx, rfl⟩ := validate_eq_some htmax h
    exact errinfoTells_invalidConfig hpos hsub hidx
  | noRun | degree => exact errinfoTells_invalidConfig (by decide) (by decide) (by decide)
  | ksFull => exact .inr (.inl rfl)
  | lenLong => exact .inl rfl
  | kslenLong => exact .inr (.inl rfl)
  | dblenLong => exact .inr (.inr (.inl rfl))
  | txlenLong => exact .inr (.inr (.inr rfl))
  | emptySequence => rfl
  | character _ _ h => exact errinfoTells_encodingError h
  | bitCount => exact BitVec.ofNat_toNat 32 s.dblen
  | dataMismatch | textMismatch => exact BitVec.ofNat_toNat 32 s.kslen

theorem Leads.errinfoTells (htmax : p.tmax ≤ 255) {i : Instr} {t : State} (h : Leads p s i t) :
    ErrinfoTells s w t.err t.errinfo := by
  cases h with
  | raised hf => exact hf.errinfoTells htmax
  | completed => rfl

end

/-- A state from which every command that may raise the error does so; see `failingState_err`. -/
def failingState : ErrCode → State
  | .ok => State.reset
  | .invalidConfig => { State.reset with kslen := 1#32 }
  | .invalidSequence => State.reset
  | .lengthMismatch => { State.reset with kslen := 1#32 }
  | .malformedBits => { State.reset with kslen := 1#32, dblen := 1#32 }
  | .encodingError => { State.reset with tx := [(0, 256#32)], txlen := 1#32 }
  | .illegalCommand => State.reset
  | .capacityExceeded =>
    { State.reset with
      run := true
      degree := 1#32
      ntap := 1#32
      len := 262145#32
      kslen := 262145#32
      dblen := 262145#32
      txlen := 32769#32 }

theorem failingState_err (i : Instr) : ∀ e ∈ mayRaise i, (commandAt Config.params i (failingState e)).err = e := by
  cases i <;> decide

section
variable {p : Params} {s u : State} {i : Instr}

/-- Only `INIT` and `GEN` touch `RUN`, and they open a run over a valid configuration. -/
theorem Leads.run_cases (h : Leads p s i u) :
    u.run = s.run ∨ ((i = .init ∨ i = .gen) ∧ u.run = true ∧ u.err = .ok ∧ ConfigValid p s) := by
  cases h with
  | raised => exact .inl rfl
  | completed h =>
    cases h with
    | init hconfig => exact .inr ⟨.inl rfl, rfl, rfl, hconfig⟩
    | gen hconfig => exact .inr ⟨.inr rfl, rfl, rfl, hconfig⟩
    | _ => exact .inl rfl

theorem lowRegister_eq_some {r : Nat} {x : Reg} (h : lowRegister r = some x) : regNumber x = r := by
  unfold lowRegister at h
  split at h <;> cases h <;> rfl

theorem regNumber_of_regOfNumber {r : Nat} {x : Reg} (h : regOfNumber p r = some x) :
    regNumber x = r ∧ r < 16 + p.tmax := by
  unfold regOfNumber at h
  split at h
  case isTrue hlow => exact ⟨lowRegister_eq_some h, by omega⟩
  case isFalse hhigh =>
    split at h
    case isTrue htap =>
      cases h
      exact ⟨by rw [regNumber]; omega, htap⟩
    case isFalse => cases h

/-- A register write leaves `RUN` alone or is a configuration write, which closes the run (10_state.md R34). -/
theorem writeReg_run_cases {r : Nat} {x : Reg} (h : regOfNumber p r = some x) (v : Word) (s : State) :
    (writeReg v s x).run = s.run ∨ ((writeReg v s x).run = false ∧ IsConfigNumber p r) := by
  obtain ⟨rfl, hr⟩ := regNumber_of_regOfNumber h
  cases x with
  | conv | degree | ntap | seed => exact .inr ⟨rfl, .inl (by decide)⟩
  | tap k => exact .inr ⟨rfl, .inr ⟨Nat.le_add_right 16 k, hr⟩⟩
  | _ => exact .inl rfl

/-- An access was a write to `CMD` of a command that opened a run. -/
def OpensRun (p : Params) (s : State) (a : Access) (t : State) : Prop :=
  ∃ w, a = .writeReg 0 w ∧ (decode w = .ok .init ∨ decode w = .ok .gen) ∧ t.err = .ok ∧ ConfigValid p s

/-- An access was reset or a write to a configuration register. -/
def ClosesRun (p : Params) (a : Access) : Prop := a = .reset ∨ ∃ r v, a = .writeReg r v ∧ IsConfigNumber p r

/-- Who touches `RUN` (10_state.md R23). -/
theorem access_run_cases {a : Access} {t : State} (h : access p (execAt p) s a = .next t) :
    t.run = s.run ∨ (t.run = true ∧ OpensRun p s a t) ∨ (t.run = false ∧ ClosesRun p a) := by
  cases a with
  | readReg r =>
    obtain ⟨x, _, hx⟩ | ⟨_, hrefused⟩ := accessReg_cases p r (fun x => answer (readReg s x) s)
    · cases hx.symm.trans h
      exact .inl rfl
    · cases hrefused.symm.trans h
  | writeReg r v =>
    by_cases hr : r = 0
    · subst hr
      obtain ⟨i, hi, hrun⟩ | ⟨_, hraise⟩ := command_cases (execAt p) v s
      · obtain hsame | ⟨rfl | rfl, hopen, hok, hconfig⟩ := (leads_of_execAt (hrun.symm.trans h)).run_cases
        · exact .inl hsame
        · exact .inr (.inl ⟨hopen, v, rfl, .inl hi, hok, hconfig⟩)
        · exact .inr (.inl ⟨hopen, v, rfl, .inr hi, hok, hconfig⟩)
      · cases hraise.symm.trans h
        exact .inl rfl
    · rw [access_writeReg v hr] at h
      obtain ⟨x, hx, hnext⟩ | ⟨_, hrefused⟩ := accessReg_cases p r (writeReg v s)
      · cases hnext.symm.trans h
        obtain hsame | ⟨hclosed, hnum⟩ := writeReg_run_cases hx v s
        · exact .inl hsame
        · exact .inr (.inr ⟨hclosed, .inr ⟨r, v, rfl, hnum⟩⟩)
      · cases hrefused.symm.trans h
  | readKs c | writeKs c v | readDb c | writeDb c v | readTx c | writeTx c v =>
    obtain ⟨_, hnext⟩ | ⟨_, hrefused⟩ := accessCell_cases p _ c _
    · cases hnext.symm.trans h
      exact .inl rfl
    · cases hrefused.symm.trans h
  | reset =>
    cases h
    exact .inr (.inr ⟨rfl, .inl rfl⟩)

end

end Sys2Proof.Machine
end

section
/-! PROOFS. The statements about all commands: errors, what is written, who opens and closes a run. -/

namespace Sys2Proof.Machine

/-- Settles O39: by the failures a command can raise; an illegal word is its own context. -/
theorem errinfoAfterACommand : Obligations.ErrinfoAfterACommand := by
  intro s w rest hpending
  have htells : ∃ t, step s = .next t ∧ ErrinfoTells s w t.err t.errinfo := by
    rw [step_access s _ rest hpending, access_writeCmd]
    obtain ⟨i, _, hrun⟩ | ⟨_, hraise⟩ := command_cases exec w { s with pending := rest }
    · exact ⟨_, hrun.trans (exec_eq_commandAt i _),
        (commandAt_leads Config.params { s with pending := rest } i).errinfoTells (by decide)⟩
    · exact ⟨_, hraise, rfl⟩
  obtain ⟨t, hstep, ht⟩ := htells
  have hcase {e : ErrCode} (he : t.err = e) : ErrinfoTells s w e t.errinfo := he ▸ ht
  exact ⟨t, hstep, hcase, hcase, hcase, hcase, hcase, hcase, hcase, hcase⟩

/-- Settles O40: by the failures a command can raise, and one failing state for each error. -/
theorem errorsByCommand : Obligations.ErrorsByCommand :=
  ⟨fun _ _ _ ht => (leads_of_exec ht).err_cases,
    fun i e he => ⟨_, _, exec_eq_commandAt i (failingState e), failingState_err i e he⟩⟩

/-- Settles O41: an error writes `ERR` and `ERRINFO` alone, and each effect names what it writes. -/
theorem commandsWriteOnlyTheirOwn : Obligations.CommandsWriteOnlyTheirOwn := by
  intro i s
  obtain ⟨t, ht⟩ := exec_next i s
  refine ⟨t, ht, ?_⟩
  cases leads_of_exec ht with
  | raised => simp
  | completed hu =>
    cases hu with
    | init | step | gen | period | inDb => simp
    | classify st => cases st <;> simp [classifyCommand]
    | toDb hi | toTx hi =>
      simp only [List.mem_cons, List.not_mem_nil, or_false] at hi
      obtain rfl | rfl := hi <;> simp

/-- Settles O50: by what each access does to `RUN`. -/
theorem whoOpensAndClosesARun : Obligations.WhoOpensAndClosesARun := by
  intro s t ht
  cases hpending : s.pending with
  | nil =>
    cases (step_idle s hpending).symm.trans ht
    exact ⟨fun hclosed hopen => by simp [hclosed] at hopen, fun hopen hclosed => by simp [hopen] at hclosed⟩
  | cons a rest =>
    rw [step_eq_stepAt, stepAt_access _ s a rest hpending] at ht
    obtain hsame | ⟨hopen, w, rfl, hw, hok, hconfig⟩ | ⟨hclosed, hcloses⟩ := access_run_cases ht
    · have hsame : t.run = s.run := hsame
      exact ⟨fun h h' => by simp [hsame, h] at h', fun h h' => by simp [hsame, h] at h'⟩
    · exact ⟨fun _ _ => ⟨w, rest, rfl, hw, hok, hconfig⟩, fun _ h => by simp [hopen] at h⟩
    · refine ⟨fun _ h => by simp [hclosed] at h, fun _ _ => ⟨rest, ?_⟩⟩
      obtain rfl | ⟨r, v, rfl, hnum⟩ := hcloses
      · exact .inl rfl
      · exact .inr ⟨r, v, rfl, hnum⟩

/-- Settles O58: no length of 32 bits reaches such a capacity. -/
theorem noCapacityErrorWhenUnbounded : Obligations.NoCapacityErrorWhenUnbounded := by
  intro p i s hlmax hcmax
  refine ⟨_, rfl, fun hcode => ?_⟩
  obtain ⟨length, hlength⟩ := (commandAt_leads p s i).exceeds hcode
  have hword : length.toNat < 2 ^ 32 := length.isLt
  omega

end Sys2Proof.Machine
end

section
/-! SUPPORT. A run of the machine, step by step: the state after the first `k` bits of the sequence (40_lfsr_engine.md
R104), and what the sequence depends on (R105). -/

namespace Sys2Proof.Machine

theorem execAll_cons {i : Instr} {is : List Instr} {s t : State} (h : exec i s = .next t) :
    execAll (i :: is) s = execAll is t := by
  rw [execAll, h]

/-- One block behind another is one block (20_memory.md R50). -/
theorem Memory.write_write_append {w : Nat} (m : Memory w) (hm : m.wf) (vs us : List (BitVec w)) :
    (m.write 0 vs).write vs.length us = m.write 0 (vs ++ us) := by
  refine Memory.ext_of_wf _ _ (Memory.write_wf _ _ _ (Memory.write_wf _ _ _ hm)) (Memory.write_wf _ _ _ hm) fun a => ?_
  simp only [Memory.read_write, List.length_append, List.getD_eq_getElem?_getD]
  by_cases hlow : a < vs.length
  · rw [if_neg (by omega), if_pos (by omega), if_pos (by omega), Nat.sub_zero, List.getElem?_append_left hlow]
  · by_cases hmid : a < vs.length + us.length
    · rw [if_pos (by omega), if_pos (by omega), Nat.sub_zero, List.getElem?_append_right (by omega)]
    · rw [if_neg (by omega), if_neg (by omega), if_neg (by omega)]

theorem generate_succ (c : LfsrConfig) (k : Nat) :
    c.generate (k + 1) = c.generate k ++ [(c.step (c.stateAfter k)).2] := by
  rw [LfsrConfig.generate, runFrom_succ, runFrom_seed_eq_generate]

/-- The state of a run opened in `s` when it has emitted `k` bits. -/
def afterBits (s : State) (k : Nat) : State :=
  done (setOut (((configOf s).generate k).getLastD s.out) (openRun
    { s with
      ks := s.ks.write 0 ((configOf s).generate k)
      lfsr := (configOf s).stateAfter k
      kslen := BitVec.ofNat 32 k }))

section
variable {s : State}

theorem exec_gen_eq_afterBits (h : ConfigValid Config.params s) (hfits : s.len.toNat ≤ Config.params.lmax) :
    exec .gen s = .next (afterBits s s.len.toNat) := by
  rw [exec_gen_of_fits h hfits, afterBits, BitVec.ofNat_toNat, BitVec.setWidth_eq]

theorem exec_init_eq_afterBits (hwf : s.ks.wf) (h : ConfigValid Config.params s) :
    exec .init s = .next (afterBits s 0) := by
  have hks : s.ks.write 0 [] = s.ks :=
    Memory.ext_of_wf _ _ (Memory.write_wf _ _ _ hwf) hwf fun a => s.ks.read_write_zero_of_ge (Nat.zero_le a)
  rw [exec_init_of_configValid h]
  calc Host.Outcome.next (done (openRun { s with lfsr := s.seed, kslen := 0#32 }))
    _ = .next (done (openRun { s with ks := s.ks.write 0 [], lfsr := s.seed, kslen := 0#32 })) := by rw [hks]
    _ = .next (afterBits s 0) := rfl

/-- One step appends the next bit of the sequence. -/
theorem exec_step_afterBits (hwf : s.ks.wf) {k : Nat} (hk : k < Config.params.lmax) :
    exec .step (afterBits s k) = .next (afterBits s (k + 1)) := by
  have hk' : k < 262144 := hk
  have hkslen : (BitVec.ofNat 32 k).toNat = k := Nat.mod_eq_of_lt (by omega)
  have hblock := Memory.write_write_append s.ks hwf ((configOf s).generate k)
    [((configOf s).step ((configOf s).stateAfter k)).2]
  rw [generate_length, ← generate_succ] at hblock
  rw [exec_step_of_open rfl (hkslen.trans_lt hk)]
  calc Host.Outcome.next _
    _ = .next (done (setOut ((configOf s).step ((configOf s).stateAfter k)).2 (openRun
          { s with
            ks := (s.ks.write 0 ((configOf s).generate k)).write (BitVec.ofNat 32 k).toNat
              [((configOf s).step ((configOf s).stateAfter k)).2]
            lfsr := (configOf s).stateAfter (k + 1)
            kslen := BitVec.ofNat 32 k + 1#32 }))) := rfl
    _ = .next (afterBits s (k + 1)) := by
      rw [hkslen, hblock, afterBits, generate_getLastD _ (Nat.le_add_left 1 k), BitVec.ofNat_add, Nat.add_sub_cancel]

theorem execAll_step_afterBits (hwf : s.ks.wf) (m : Nat) {k : Nat} (hk : k + m ≤ Config.params.lmax) :
    execAll (List.replicate m .step) (afterBits s k) = .next (afterBits s (k + m)) := by
  induction m generalizing k with
  | zero => rfl
  | succ m ih =>
    rw [List.replicate_succ, execAll_cons (exec_step_afterBits hwf (by omega)), ih (by omega), Nat.add_assoc,
      Nat.add_comm 1 m]

theorem afterBits_withLen (s : State) (len : Word) (k : Nat) :
    afterBits { s with len := len } k = { afterBits s k with len := len } := rfl

end

theorem ksSeq_afterBits (s : State) {k : Nat} (hk : k < 2 ^ 32) : ksSeq (afterBits s k) = (configOf s).generate k := by
  have hkslen : (afterBits s k).kslen.toNat = ((configOf s).generate k).length :=
    (Nat.mod_eq_of_lt hk).trans (generate_length _ _).symm
  rw [ksSeq, hkslen]
  exact Memory.readSeq_write _ _ _

theorem generate_take (c : LfsrConfig) {a b : Nat} (h : a ≤ b) : (c.generate b).take a = c.generate a := by
  simp [LfsrConfig.generate, runFrom_seed, ← List.map_take, List.take_range, h]

end Sys2Proof.Machine
end

section
/-! PROOFS. The statements about `GEN` and runs (40_lfsr_engine.md R104, R105). -/

namespace Sys2Proof.Machine

/-- Settles O18: `INIT` leads to the run before its first bit, `STEP` to the next bit, and `GEN` to the run at `LEN`. -/
theorem genIsInitAndSteps : Obligations.GenIsInitAndSteps := by
  intro s hwf h hlen
  have hgen := exec_gen_eq_afterBits h hlen
  refine ⟨⟨_, hgen, ?_⟩, fun m hm => ⟨afterBits s (s.len.toNat + m), ?_, ?_⟩⟩
  · rw [execAll_cons (exec_init_eq_afterBits hwf h), execAll_step_afterBits hwf _ (by omega), Nat.zero_add]
  · rw [execAll_cons hgen, execAll_step_afterBits hwf m hm]
  · have hm' : s.len.toNat + m ≤ 262144 := hm
    have hword : (BitVec.ofNat 32 (s.len.toNat + m)).toNat = s.len.toNat + m := Nat.mod_eq_of_lt (by omega)
    rw [exec_gen_eq_afterBits (s := { s with len := BitVec.ofNat 32 (s.len.toNat + m) }) h (hword.trans_le hm), hword,
      afterBits_withLen]

/-- Settles O19: two states with the same configuration and length run to the same sequence and the same `S`. -/
theorem genDependsOnConfigurationAndLength : Obligations.GenDependsOnConfigurationAndLength := by
  refine ⟨fun s s' h hlen hconv hdegree hntap htaps hseed hlen' => ?_, fun c a b hab => (generate_take c hab).symm⟩
  have hconfig : configOf s' = configOf s := by simp only [configOf, hconv, hdegree, htaps, hseed]
  have h' : ConfigValid Config.params s' := by
    rwa [ConfigValid, hconv, hdegree, hntap, htaps, hseed]
  have hgen := exec_gen_eq_afterBits h hlen
  have hgen' := exec_gen_eq_afterBits h' (hlen'.symm ▸ hlen)
  rw [hlen'] at hgen'
  refine ⟨_, _, hgen, hgen', ?_, rfl, ?_, rfl⟩
  · rw [ksSeq_afterBits s' s.len.isLt, ksSeq_afterBits s s.len.isLt, hconfig]
  · exact congrArg (fun c => c.stateAfter s.len.toNat) hconfig

end Sys2Proof.Machine
end

section
/-! SUPPORT. A PREPEND step read backwards is a TOPFB step (40_lfsr_engine.md R108). -/

namespace Sys2Proof.Machine

/-- A sum of bits times rising powers of 2 is a number with these bits. -/
theorem sum_bits_lt_and_testBit (f : Nat → Bit) (n : Nat) :
    ((List.range n).map (fun i => (f i).toNat * 2 ^ i)).sum < 2 ^ n ∧
      ∀ j, ((List.range n).map (fun i => (f i).toNat * 2 ^ i)).sum.testBit j = (decide (j < n) && f j == 1#1) := by
  induction n with
  | zero => simp
  | succ n ih =>
    obtain ⟨hlt, hbits⟩ := ih
    have hbit : (f n).toNat < 2 := (f n).isLt
    have hsum : ((List.range (n + 1)).map (fun i => (f i).toNat * 2 ^ i)).sum =
        2 ^ n * (f n).toNat + ((List.range n).map (fun i => (f i).toNat * 2 ^ i)).sum := by
      simp [List.range_succ, Nat.mul_comm, Nat.add_comm]
    rw [hsum]
    refine ⟨?_, fun j => ?_⟩
    · have hmul : 2 ^ n * (f n).toNat ≤ 2 ^ n * 1 := Nat.mul_le_mul_left _ (by omega)
      omega
    · rw [Nat.testBit_two_pow_mul_add _ hlt, hbits]
      obtain hj | rfl | hj := Nat.lt_trichotomy j n
      · simp [hj, Nat.lt_succ_of_lt hj]
      · have hparity : ∀ b : Bit, b.toNat.testBit 0 = (b == 1#1) := by decide
        rw [if_neg (Nat.lt_irrefl j), Nat.sub_self, hparity, decide_eq_true (Nat.lt_succ_self j), Bool.true_and]
      · have hzero : (f n).toNat.testBit (j - n) = false :=
          Nat.testBit_lt_two_pow (hbit.trans_le (Nat.pow_le_pow_right Nat.two_pos (Nat.sub_pos_of_lt hj)))
        simp [Nat.not_lt.mpr (Nat.le_of_lt hj), Nat.not_lt.mpr (Nat.succ_le_of_lt hj), hzero]

theorem bitAt_revBits {n : Nat} (hn : n ≤ 32) (x : Word) (i : Nat) :
    bitAt (revBits n x) i = if i < n then bitAt x (n - 1 - i) else 0#1 := by
  obtain ⟨hlt, hbits⟩ := sum_bits_lt_and_testBit (fun i => bitAt x (n - 1 - i)) n
  have hword : (revBits n x).toNat = _ := Nat.mod_eq_of_lt (hlt.trans_le (Nat.pow_le_pow_right Nat.two_pos hn))
  rw [bitAt, ← BitVec.testBit_toNat, hword, hbits, bitAt_beq_one, BitVec.testBit_toNat]
  by_cases hi : i < n <;> simp [hi, bitAt]

section
variable {n : Nat} {taps : List Nat} (hpos : 1 ≤ n) (hn : n ≤ 32) (hzero : 0 ∈ taps) (htaps : ∀ a ∈ taps, a < n)
include hpos hn hzero htaps

/-- The two rules on reversed states: the same shift, the same feedback into the top bit, the same output. -/
theorem stepTopfb_revBits (x : Word) :
    stepTopfb (taps.map (fun a => n - a)) (revBits n x) =
      (revBits n (stepPrepend n taps x).1, (stepPrepend n taps x).2) := by
  have hmax : maxTap (taps.map (fun a => n - a)) = n :=
    maxTap_eq (List.mem_map.mpr ⟨0, hzero, rfl⟩) fun t ht => by
      obtain ⟨a, _, rfl⟩ := List.mem_map.mp ht
      exact Nat.sub_le n a
  have hfeedback : (taps.map (fun a => n - a)).map (fun t => bitAt (revBits n x) (t - 1)) = taps.map (bitAt x) := by
    rw [List.map_map]
    refine List.map_congr_left fun a ha => ?_
    have han := htaps a ha
    have hindex : n - 1 - (n - a - 1) = a := by omega
    rw [Function.comp_apply, bitAt_revBits hn, if_pos (by omega), hindex]
  refine Prod.ext (bitAt_inj fun i hi => ?_) ?_
  · rw [bitAt_stepTopfb _ _ hi, hmax, hfeedback, bitAt_revBits hn, bitAt_revBits hn, bitAt_stepPrepend hn]
    obtain hlow | htop | hbeyond : i + 1 < n ∨ i = n - 1 ∨ n ≤ i := by omega
    · have hindex : n - 1 - (i + 1) = n - 1 - i - 1 := by omega
      rw [if_pos hlow, if_neg (by omega), if_pos (by omega), if_pos (by omega), if_neg (by omega), hindex]
      exact BitVec.or_zero
    · rw [if_neg (by omega), if_pos htop, if_pos (by omega), if_pos (by omega), if_pos (by omega)]
      exact BitVec.zero_or
    · rw [if_neg (by omega), if_neg (by omega), if_neg (by omega)]
      rfl
  · calc bitAt (revBits n x) 0
      _ = bitAt x (n - 1 - 0) := (bitAt_revBits hn x 0).trans (if_pos hpos)
      _ = bitAt x (n - 1) := rfl

end

theorem generate_eq_map (c : LfsrConfig) (k : Nat) :
    c.generate k = (List.range k).map (fun i => (c.step (c.stateAfter i)).2) := by
  rw [LfsrConfig.generate, runFrom_seed]

end Sys2Proof.Machine
end

section
/-! SUPPORT. When the leaving bit is tapped a step loses nothing, so a run returns to its seed (41_period_classifier.md
R123). -/

namespace Sys2Proof.Machine

theorem xorAll_map_xor (taps : List Nat) (f g : Nat → Bit) :
    xorAll (taps.map (fun t => f t ^^^ g t)) = xorAll (taps.map f) ^^^ xorAll (taps.map g) := by
  induction taps with
  | nil => exact (BitVec.xor_self (x := 0#1)).symm
  | cons t taps ih =>
    rw [List.map_cons, List.map_cons, List.map_cons, xorAll_cons, xorAll_cons, xorAll_cons, ih]
    ac_rfl

/-- Entries of one value cancel in pairs (40_lfsr_engine.md R99). -/
theorem xorAll_map_ite (taps : List Nat) (x : Nat) (b : Bit) :
    xorAll (taps.map (fun t => if t = x then b else 0#1)) = if taps.count x % 2 = 1 then b else 0#1 := by
  induction taps with
  | nil => rfl
  | cons t taps ih =>
    rw [List.map_cons, xorAll_cons, ih]
    by_cases ht : t = x
    · obtain hparity | hparity := Nat.mod_two_eq_zero_or_one (taps.count x)
      · simp [ht, hparity, Nat.add_mod]
      · simp [ht, hparity, Nat.add_mod]
    · simp [ht]

/-- A position listed an odd number of times can be read off the feedback and the other positions. -/
theorem eq_of_xorAll_eq {taps : List Nat} {x : Nat} {f g : Nat → Bit} (hodd : taps.count x % 2 = 1)
    (hother : ∀ t ∈ taps, t ≠ x → f t = g t) (h : xorAll (taps.map f) = xorAll (taps.map g)) : f x = g x := by
  have hdiff : taps.map (fun t => f t ^^^ g t) = taps.map (fun t => if t = x then f x ^^^ g x else 0#1) := by
    refine List.map_congr_left fun t ht => ?_
    by_cases htx : t = x
    · rw [if_pos htx, htx]
    · rw [if_neg htx, hother t ht htx, BitVec.xor_self]
  have hzero : f x ^^^ g x = 0#1 := by
    calc f x ^^^ g x
      _ = xorAll (taps.map (fun t => f t ^^^ g t)) := by rw [hdiff, xorAll_map_ite, if_pos hodd]
      _ = 0#1 := by rw [xorAll_map_xor, h, BitVec.xor_self]
  exact BitVec.xor_eq_zero_iff.mp hzero

section
variable {n : Nat} {taps : List Nat} {x y : Word} (hx : x.toNat < 2 ^ n) (hy : y.toNat < 2 ^ n)
include hx hy

theorem bitAt_inj_of_width (h : ∀ i < n, bitAt x i = bitAt y i) : x = y := by
  refine bitAt_inj fun i _ => ?_
  by_cases hi : i < n
  · exact h i hi
  · rw [bitAt_of_width hx (Nat.le_of_not_lt hi), bitAt_of_width hy (Nat.le_of_not_lt hi)]

variable (hpos : 1 ≤ n) (hn : n ≤ 32)
include hpos hn

theorem stepPrepend_inj (hodd : taps.count (n - 1) % 2 = 1) (htaps : ∀ t ∈ taps, t < n)
    (h : (stepPrepend n taps x).1 = (stepPrepend n taps y).1) : x = y := by
  have hbit (i : Nat) := congrArg (bitAt · i) h
  simp only [bitAt_stepPrepend hn] at hbit
  have hlow : ∀ i < n, i ≠ n - 1 → bitAt x i = bitAt y i := fun i hi hne => by
    simpa [show i + 1 < n by omega] using hbit (i + 1)
  have hfeedback : xorAll (taps.map (bitAt x)) = xorAll (taps.map (bitAt y)) := by
    simpa [show 0 < n by omega] using hbit 0
  have hlast : bitAt x (n - 1) = bitAt y (n - 1) :=
    eq_of_xorAll_eq hodd (fun t ht hne => hlow t (htaps t ht) hne) hfeedback
  refine bitAt_inj_of_width hx hy fun i hi => ?_
  by_cases hi' : i = n - 1
  · rw [hi', hlast]
  · exact hlow i hi hi'

theorem stepTopfb_inj (hodd : taps.count 1 % 2 = 1) (hmem : n ∈ taps) (htaps : ∀ t ∈ taps, 1 ≤ t ∧ t ≤ n)
    (h : (stepTopfb taps x).1 = (stepTopfb taps y).1) : x = y := by
  have hmax : maxTap taps = n := maxTap_eq hmem fun t ht => (htaps t ht).2
  have hbit (i : Nat) : bitAt (stepTopfb taps x).1 i = bitAt (stepTopfb taps y).1 i := congrArg (bitAt · i) h
  have hhigh : ∀ i < n, i ≠ 0 → bitAt x i = bitAt y i := fun i hi hne => by
    have hi' := hbit (i - 1)
    rwa [bitAt_stepTopfb _ _ (by omega), bitAt_stepTopfb _ _ (by omega), hmax, if_neg (by omega), if_neg (by omega),
      BitVec.or_zero, BitVec.or_zero, Nat.sub_add_cancel (by omega)] at hi'
  have hfeedback : xorAll (taps.map (fun t => bitAt x (t - 1))) = xorAll (taps.map (fun t => bitAt y (t - 1))) := by
    have htop := hbit (n - 1)
    rwa [bitAt_stepTopfb _ _ (by omega), bitAt_stepTopfb _ _ (by omega), hmax, if_pos rfl, if_pos rfl,
      Nat.sub_add_cancel hpos, bitAt_of_width hx (Nat.le_refl n), bitAt_of_width hy (Nat.le_refl n), BitVec.zero_or,
      BitVec.zero_or] at htop
  have hother : ∀ t ∈ taps, t ≠ 1 → bitAt x (t - 1) = bitAt y (t - 1) := fun t ht hne => by
    obtain ⟨hlo, hhi⟩ := htaps t ht
    exact hhigh (t - 1) (by omega) (by omega)
  have hlast : bitAt x (1 - 1) = bitAt y (1 - 1) :=
    eq_of_xorAll_eq (f := fun t => bitAt x (t - 1)) (g := fun t => bitAt y (t - 1)) hodd hother hfeedback
  refine bitAt_inj_of_width hx hy fun i hi => ?_
  by_cases hi' : i = 0
  · rw [hi']
    exact hlast
  · exact hhigh i hi hi'

end

section
variable {c : LfsrConfig} (hc : c.Valid) (hleaving : c.LeavingBitTapped)
include hc hleaving

theorem step_inj {x y : Word} (hx : x.toNat < 2 ^ c.degree) (hy : y.toNat < 2 ^ c.degree)
    (h : (c.step x).1 = (c.step y).1) : x = y := by
  obtain ⟨conv, n, taps, seed⟩ := c
  obtain ⟨⟨hpos, hn⟩, _, htaps, _⟩ := hc
  cases conv with
  | prepend => exact stepPrepend_inj hx hy hpos hn hleaving htaps h
  | topfb => exact stepTopfb_inj hx hy hpos hn hleaving.1 hleaving.2 htaps h

/-- Two equal states of a run have equal states before them. -/
theorem stateAfter_eq_seed {i d : Nat} (h : c.stateAfter (i + d) = c.stateAfter i) : c.stateAfter d = c.seed := by
  induction i with
  | zero => rwa [Nat.zero_add] at h
  | succ i ih =>
    rw [Nat.add_right_comm] at h
    exact ih (step_inj hc hleaving (stateAfter_width hc _) (stateAfter_width hc _) h)

theorem stateAfter_ne_zero (hseed : c.seed ≠ 0#32) (i : Nat) : c.stateAfter i ≠ 0#32 := by
  induction i with
  | zero => exact hseed
  | succ i ih =>
    intro hzero
    have hstep : (c.step (c.stateAfter i)).1 = (c.step 0#32).1 := hzero.trans (congrArg Prod.fst (step_zero c)).symm
    exact ih (step_inj hc hleaving (stateAfter_width hc i) (Nat.two_pow_pos _) hstep)

/-- The run is back at its seed after at most `2^n - 1` steps: there are no more nonzero states of `n` bits. -/
theorem exists_stateAfter_eq_seed : ∃ d, 1 ≤ d ∧ d ≤ maxPeriod c.degree ∧ c.stateAfter d = c.seed := by
  have ⟨⟨hdegree, _⟩, _⟩ := hc
  by_cases hseed : c.seed = 0#32
  · refine ⟨1, Nat.le_refl 1, maxPeriod_pos hdegree, ?_⟩
    rw [LfsrConfig.stateAfter, LfsrConfig.stateAfter, hseed, step_zero]
  · have hmaps : ∀ i ∈ Finset.range (2 ^ c.degree), (c.stateAfter i).toNat ∈ Finset.Icc 1 (maxPeriod c.degree) := by
      intro i _
      have hpos : (c.stateAfter i).toNat ≠ 0 := fun hzero =>
        stateAfter_ne_zero hc hleaving hseed i (BitVec.eq_of_toNat_eq hzero)
      have hlt := stateAfter_width hc i
      rw [Finset.mem_Icc, maxPeriod]
      omega
    have hcard : (Finset.Icc 1 (maxPeriod c.degree)).card < (Finset.range (2 ^ c.degree)).card := by
      have hpow := Nat.two_pow_pos c.degree
      rw [Nat.card_Icc, Finset.card_range, maxPeriod]
      omega
    obtain ⟨i, hi, j, hj, hne, heq⟩ := Finset.exists_ne_map_eq_of_card_lt_of_maps_to hcard hmaps
    have heq := BitVec.eq_of_toNat_eq heq
    rw [Finset.mem_range] at hi hj
    obtain hlt | hlt := Nat.lt_or_gt_of_ne hne
    · obtain ⟨d, rfl⟩ := Nat.exists_eq_add_of_le (Nat.le_of_lt hlt)
      exact ⟨d, by omega, by rw [maxPeriod]; omega, stateAfter_eq_seed hc hleaving heq.symm⟩
    · obtain ⟨d, rfl⟩ := Nat.exists_eq_add_of_le (Nat.le_of_lt hlt)
      exact ⟨d, by omega, by rw [maxPeriod]; omega, stateAfter_eq_seed hc hleaving heq⟩

end

/-- A run back at its seed repeats from there. -/
theorem stateAfter_periodic {c : LfsrConfig} {d : Nat} (h : c.stateAfter d = c.seed) :
    Function.Periodic c.stateAfter d := by
  intro i
  induction i with
  | zero => rwa [Nat.zero_add]
  | succ i ih => rw [Nat.add_right_comm, LfsrConfig.stateAfter, ih, LfsrConfig.stateAfter]

theorem isPeriodOf_generate {c : LfsrConfig} {d : Nat} (hpos : 1 ≤ d) (h : c.stateAfter d = c.seed) (length : Nat) :
    IsPeriodOf (c.generate length) d := by
  refine ⟨hpos, fun i hi _ => ?_⟩
  have hi : i < length := hi.trans_eq (generate_length c length)
  rw [generate_getElem? c hi, generate_getElem? c (Nat.lt_of_le_of_lt (Nat.mod_le i d) hi),
    (stateAfter_periodic h).map_mod_nat]

end Sys2Proof.Machine
end

section
/-! SUPPORT. The period by shifts, and the constant sequences (41_period_classifier.md R111, R113, R119). -/

namespace Sys2Proof.Machine

section
variable {q : List Bit} {p : Nat}

theorem period_le_of_isPeriodOf (h : IsPeriodOf q p) : period q ≤ p :=
  Nat.le_of_not_lt fun hlt => not_isPeriodOf_of_lt_period hlt h

theorem IsPeriodOf.getElem? (h : IsPeriodOf q p) {i : Nat} (hi : i < q.length) : q[i]? = q[i % p]? := by
  by_cases hp : p ≤ i
  · exact h.2 i hi hp
  · rw [Nat.mod_eq_of_lt (Nat.lt_of_not_le hp)]

theorem isPeriodOf_iff_shift (hpos : 1 ≤ p) :
    IsPeriodOf q p ↔ ∀ i < q.length, p ≤ i → q[i]? = q[i - p]? := by
  constructor
  · intro h i hi hp
    rw [IsPeriodOf.getElem? h hi, IsPeriodOf.getElem? h (i := i - p) (by omega), Nat.mod_eq_sub_mod hp]
  · refine fun h => ⟨hpos, fun i => ?_⟩
    induction i using Nat.strongRecOn with
    | ind i ih =>
      intro hi hp
      rw [h i hi hp, Nat.mod_eq_sub_mod hp]
      by_cases hp' : p ≤ i - p
      · exact ih (i - p) (by omega) (by omega) hp'
      · rw [Nat.mod_eq_of_lt (Nat.lt_of_not_le hp')]

theorem period_eq_one_iff : period q = 1 ↔ ∀ x ∈ q, ∀ y ∈ q, x = y := by
  constructor
  · intro h
    have hfirst : ∀ x ∈ q, some x = q[0]? := fun x hx => by
      obtain ⟨i, hi, rfl⟩ := List.getElem_of_mem hx
      rw [← List.getElem?_eq_getElem hi, IsPeriodOf.getElem? (h ▸ isPeriodOf_period q) hi, Nat.mod_one]
    exact fun x hx y hy => Option.some.inj ((hfirst x hx).trans (hfirst y hy).symm)
  · intro h
    have hone : IsPeriodOf q 1 := by
      refine ⟨Nat.le_refl 1, fun i hi _ => ?_⟩
      have hzero : i % 1 < q.length := by omega
      rw [List.getElem?_eq_getElem hi, List.getElem?_eq_getElem hzero]
      exact congrArg some (h _ (List.getElem_mem hi) _ (List.getElem_mem hzero))
    exact Nat.le_antisymm (period_le_of_isPeriodOf hone) (isPeriodOf_period q).1

theorem constant_of_not_mem {b : Bit} (h : b ∉ q) : ∀ x ∈ q, ∀ y ∈ q, x = y := by
  have htwo : ∀ b x y : Bit, x ≠ b → y ≠ b → x = y := by decide
  exact fun x hx y hy => htwo b x y (ne_of_mem_of_not_mem hx h) (ne_of_mem_of_not_mem hy h)

/-- A sequence holds both values exactly when it is not constant. -/
theorem both_values_iff_period_ne_one : 0#1 ∈ q ∧ 1#1 ∈ q ↔ period q ≠ 1 := by
  rw [Ne, period_eq_one_iff]
  constructor
  · exact fun ⟨hzero, hone⟩ h => absurd (h _ hzero _ hone) (by decide)
  · intro h
    exact ⟨not_not.mp fun hzero => h (constant_of_not_mem hzero), not_not.mp fun hone => h (constant_of_not_mem hone)⟩

/-- `TWOVAL` by the period alone (41_period_classifier.md R119). -/
theorem classifyTwoval_eq_of_period (q : List Bit) (n : Nat) :
    classifyTwoval q n = if period q ≠ 1 then
      (if period q = maxPeriod n then .primitive else .irreducibleNonPrimitive) else .reducible := by
  rw [classifyTwoval_eq, maxPeriod]
  exact if_congr both_values_iff_period_ne_one rfl rfl

end

end Sys2Proof.Machine
end

section
/-! PROOFS. The statements about the two conventions, the period and the strategies (40_lfsr_engine.md R108,
41_period_classifier.md R111, R113, R119, R123). -/

namespace Sys2Proof.Machine

/-- Settles O20: each TOPFB step is the PREPEND step on the reversed state, with the same output. -/
theorem conventionsCorrespond : Obligations.ConventionsCorrespond := by
  intro n taps seed hpos hn hzero htaps _ cp ct
  have hstep (x : Word) : ct.step (revBits n x) = (revBits n (cp.step x).1, (cp.step x).2) :=
    stepTopfb_revBits hpos hn hzero htaps x
  have hstate (i : Nat) : ct.stateAfter i = revBits n (cp.stateAfter i) := by
    induction i with
    | zero => rfl
    | succ i ih => rw [LfsrConfig.stateAfter, ih, hstep, LfsrConfig.stateAfter]
  refine ⟨fun length => ?_, hstate⟩
  rw [generate_eq_map, generate_eq_map]
  refine List.map_congr_left fun i _ => ?_
  rw [hstate, hstep]

/-- Settles O22: by the least period, and by induction along the shifts. -/
theorem periodBoundsAndShift : Obligations.PeriodBoundsAndShift :=
  fun q hne => ⟨⟨(isPeriodOf_period q).1, period_le_length hne⟩, fun _ => isPeriodOf_iff_shift, period_eq_one_iff⟩

/-- Settles O25: a sequence holds both values exactly when its period is not 1, and `2^n - 1` is 1 at degree 1 alone. -/
theorem strategiesPartOnlyAtDegreeOne : Obligations.StrategiesPartOnlyAtDegreeOne := by
  intro q n _
  rw [← period_eq_one_iff]
  have hone : maxPeriod 1 = 1 := rfl
  simp only [classifyTwoval_eq_of_period, classifyExact, hone]
  refine ⟨fun hn => ?_, fun h => ?_, fun h => ?_⟩
  · have hpow : 2 ^ 2 ≤ 2 ^ n := Nat.pow_le_pow_right Nat.two_pos hn
    have hmax : 1 ≠ maxPeriod n := by
      rw [maxPeriod]
      omega
    by_cases h : period q = 1
    · simp [h, hmax]
    · simp [h]
  · simp [h]
  · simp [h]

/-- Settles O26: a step loses nothing, so the run is back at its seed within `2^n - 1` steps and repeats from there. -/
theorem periodBoundWhenLeavingBitTapped : Obligations.PeriodBoundWhenLeavingBitTapped := by
  intro c length hc hleaving _
  obtain ⟨d, hpos, hle, hback⟩ := exists_stateAfter_eq_seed hc hleaving
  exact (period_le_of_isPeriodOf (isPeriodOf_generate hpos hback length)).trans hle

end Sys2Proof.Machine
end

section
/-! SUPPORT. The codec read backwards: the text of a bit sequence gives the bits (42_cipher_codec.md R132), XOR commutes
and has a neutral keystream (R137). -/

namespace Sys2Proof.Machine

section
variable {c : Nat → Nat} (hc : ∀ b, c b < 2)
include hc

/-- Eight bits, the most significant first, make a byte. -/
theorem sum_bits_le_byte : ∑ b ∈ Finset.range 8, c b * 2 ^ (7 - b) ≤ 255 := by
  have h0 := hc 0; have h1 := hc 1; have h2 := hc 2; have h3 := hc 3
  have h4 := hc 4; have h5 := hc 5; have h6 := hc 6; have h7 := hc 7
  simp only [Finset.sum_range_succ, Finset.sum_range_zero]
  omega

/-- Each of the eight bits of such a sum can be read back. -/
theorem sum_bits_div_mod {b : Nat} (hb : b < 8) :
    (∑ b ∈ Finset.range 8, c b * 2 ^ (7 - b)) / 2 ^ (7 - b) % 2 = c b := by
  have h0 := hc 0; have h1 := hc 1; have h2 := hc 2; have h3 := hc 3
  have h4 := hc 4; have h5 := hc 5; have h6 := hc 6; have h7 := hc 7
  simp only [Finset.sum_range_succ, Finset.sum_range_zero]
  interval_cases b <;> omega

end

section
variable (bits : List Bit) (j : Nat)

theorem charAt_le_byte : (charAt bits j).toNat ≤ 255 := by
  rw [charAt_toNat]
  exact sum_bits_le_byte fun b => (bits.getD (8 * j + b) 0#1).isLt

theorem bitAt_charAt {b : Nat} (hb : b < 8) : bitAt (charAt bits j) (7 - b) = bits.getD (8 * j + b) 0#1 := by
  refine BitVec.eq_of_toNat_eq ?_
  rw [bitAt_toNat_eq_div_mod, charAt_toNat]
  exact sum_bits_div_mod (c := fun b => (bits.getD (8 * j + b) 0#1).toNat) (fun _ => BitVec.isLt _) hb

end

section
variable {bits data key : List Bit}

/-- The second half of 42_cipher_codec.md R132: the text of whole characters gives its bits. -/
theorem flatMap_charBits_charAt (h : bits.length % 8 = 0) :
    ((List.range (bits.length / 8)).map (charAt bits)).flatMap charBits = bits := by
  refine List.ext_getElem? fun i => ?_
  have hrem : i % 8 < 8 := Nat.mod_lt i (by decide)
  have hindex : 8 * (i / 8) + i % 8 = i := Nat.div_add_mod i 8
  rw [← hindex, flatMap_charBits_getElem? _ _ hrem]
  by_cases hi : i < bits.length
  · have hchar : i / 8 < bits.length / 8 := by omega
    have hin : 8 * (i / 8) + i % 8 < bits.length := by omega
    simp [hchar, hin, bitAt_charAt bits _ hrem]
  · have hchar : ¬ i / 8 < bits.length / 8 := by omega
    have hin : ¬ 8 * (i / 8) + i % 8 < bits.length := by omega
    simp [hchar, hin]

theorem textToBits_map_charAt (h : bits.length % 8 = 0) :
    textToBits ((List.range (bits.length / 8)).map (charAt bits)) = .ok bits := by
  rw [textToBits_of_bytes, flatMap_charBits_charAt h]
  intro c hc
  obtain ⟨j, _, rfl⟩ := List.mem_map.mp hc
  exact charAt_le_byte bits j

theorem xorBits_comm (data key : List Bit) : xorBits data key = xorBits key data :=
  List.zipWith_comm_of_comm fun _ _ => BitVec.xor_comm _ _

theorem xorBits_zero (data : List Bit) : xorBits data (List.replicate data.length 0#1) = data := by
  refine List.ext_getElem (by simp [xorBits]) fun i _ _ => ?_
  simp [xorBits]

/-! The errors of the pure functions are errors (60_exceptions.md R151). -/

theorem textToBits_error_code {text : List Word} {f : Failure} (h : textToBits text = .error f) : f.code ≠ .ok := by
  obtain ⟨j, _, herror⟩ | ⟨_, hok⟩ := textToBits_cases text
  · cases herror.symm.trans h
    simp [encodingError]
  · cases hok.symm.trans h

theorem textToBits_length {text : List Word} (h : textToBits text = .ok bits) : bits.length = 8 * text.length := by
  obtain ⟨j, _, herror⟩ | ⟨_, hok⟩ := textToBits_cases text
  · cases herror.symm.trans h
  · cases hok.symm.trans h
    exact flatMap_charBits_length text

theorem bitsToText_error_code {f : Failure} (h : bitsToText bits = .error f) : f.code ≠ .ok := by
  obtain ⟨_, herror⟩ | ⟨_, hok⟩ := bitsToText_cases bits
  · cases herror.symm.trans h
    simp [malformedBits]
  · cases hok.symm.trans h

theorem xorTransform_error_code {f : Failure} (h : xorTransform data key = .error f) : f.code ≠ .ok := by
  obtain ⟨_, herror⟩ | ⟨_, hok⟩ := xorTransform_cases data key
  · cases herror.symm.trans h
    simp [lengthMismatch]
  · cases hok.symm.trans h

end

end Sys2Proof.Machine
end

section
/-! SUPPORT. A block written over a block (20_memory.md R50), and what a codec command that ended with `OK` has done
(42_cipher_codec.md R138 to R142). -/

namespace Sys2Proof.Machine

section
variable {w : Nat} {m : Memory w} (hm : m.wf)
include hm

theorem Memory.write_write_of_length_le {vs us : List (BitVec w)} (h : vs.length ≤ us.length) :
    (m.write 0 vs).write 0 us = m.write 0 us := by
  have hvs := Memory.write_wf m 0 vs hm
  refine Memory.ext_of_wf _ _ (Memory.write_wf _ 0 us hvs) (Memory.write_wf _ 0 us hm) fun a => ?_
  by_cases ha : a < us.length
  · rw [Memory.read_write_zero_of_lt _ ha, Memory.read_write_zero_of_lt _ ha]
  · rw [Memory.read_write_zero_of_ge _ (by omega), Memory.read_write_zero_of_ge _ (by omega),
      Memory.read_write_zero_of_ge _ (by omega)]

theorem Memory.write_readSeq (n : Nat) : m.write 0 (m.readSeq 0 n) = m := by
  refine Memory.ext_of_wf _ _ (Memory.write_wf _ _ _ hm) hm fun a => ?_
  by_cases ha : a < n
  · rw [Memory.read_write_zero_of_lt _ (by rwa [Memory.readSeq_length]), Memory.readSeq_zero_getD _ ha]
  · rw [Memory.read_write_zero_of_ge _ (by rw [Memory.readSeq_length]; omega)]

end

section
variable {s t : State}

theorem dbSeq_of_write {m : Memory 1} {bits : List Bit} (hdb : t.db = m.write 0 bits)
    (hlen : t.dblen.toNat = bits.length) : dbSeq t = bits := by
  rw [dbSeq, hdb, hlen]
  exact Memory.readSeq_write m 0 bits

theorem dbSeq_done_write {bits : List Bit} {v : Word} (hlen : v.toNat = bits.length) :
    dbSeq (done { s with db := s.db.write 0 bits, dblen := v }) = bits := dbSeq_of_write rfl hlen

theorem exec_t2b_ok (h : exec .t2b s = .next t) (hok : t.err = .ok) :
    ∃ bits, s.txlen.toNat ≤ Config.params.cmax ∧ textToBits (txSeq s) = .ok bits ∧
      t = done { s with db := s.db.write 0 bits, dblen := BitVec.ofNat 32 bits.length } := by
  cases (exec_eq_commandAt .t2b s).symm.trans h
  obtain ⟨_, hraise⟩ | ⟨hfits, hend⟩ := cmdT2b_cases Config.params s
  · exact absurd ((congrArg State.err hraise).symm.trans hok) (by simp [capacityExceeded])
  · obtain ⟨f, herror, hraise⟩ | ⟨bits, hbits, hdone⟩ := concludeDb_cases (textToBits (txSeq s)) s
    · exact absurd ((congrArg State.err (hend.trans hraise)).symm.trans hok) (textToBits_error_code herror)
    · exact ⟨bits, hfits, hbits, hend.trans hdone⟩

theorem exec_b2t_ok (h : exec .b2t s = .next t) (hok : t.err = .ok) :
    ∃ text, bitsToText (dbSeq s) = .ok text ∧
      t = done { s with tx := s.tx.write 0 text, txlen := BitVec.ofNat 32 text.length } := by
  cases (exec_eq_commandAt .b2t s).symm.trans h
  obtain ⟨_, hraise⟩ | ⟨_, hend⟩ := cmdB2t_cases Config.params s
  · exact absurd ((congrArg State.err hraise).symm.trans hok) (by simp [capacityExceeded])
  · obtain ⟨f, herror, hraise⟩ | ⟨text, htext, hdone⟩ := concludeTx_cases (bitsToText (dbSeq s)) s
    · exact absurd ((congrArg State.err (hend.trans hraise)).symm.trans hok) (bitsToText_error_code herror)
    · exact ⟨text, htext, hend.trans hdone⟩

theorem exec_xor_ok (h : exec .xor s = .next t) (hok : t.err = .ok) :
    ∃ bits, s.dblen.toNat ≤ Config.params.lmax ∧ s.kslen.toNat ≤ Config.params.lmax ∧
      xorTransform (dbSeq s) (ksSeq s) = .ok bits ∧ t = done { s with db := s.db.write 0 bits } := by
  cases (exec_eq_commandAt .xor s).symm.trans h
  obtain ⟨_, hraise⟩ | ⟨_, _, hraise⟩ | ⟨f, _, _, herror, hraise⟩ | ⟨bits, hdata, hkey, hbits, hdone⟩ :=
    cmdXor_cases Config.params s
  · exact absurd ((congrArg State.err hraise).symm.trans hok) (by simp [capacityExceeded])
  · exact absurd ((congrArg State.err hraise).symm.trans hok) (by simp [capacityExceeded])
  · exact absurd ((congrArg State.err hraise).symm.trans hok) (xorTransform_error_code herror)
  · exact ⟨bits, hdata, hkey, hbits, hdone⟩

end

section
variable {s : State} (hkey : 8 * s.txlen.toNat = s.kslen.toNat)
include hkey

theorem textBits_length_eq_ksSeq : (textBits s).length = (ksSeq s).length := by
  rw [textBits_length, hkey, ksSeq_length]

theorem xorBits_textBits_length : (xorBits (textBits s) (ksSeq s)).length = s.kslen.toNat :=
  (xorBits_length (textBits_length_eq_ksSeq hkey)).trans (textBits_length.trans hkey)

variable (htext : s.txlen.toNat ≤ Config.params.cmax)
include htext

theorem kslen_le_of_text : s.kslen.toNat ≤ Config.params.lmax := hkey.symm.trans_le (Nat.mul_le_mul_left 8 htext)

variable (hbytes : ∀ j < s.txlen.toNat, (s.tx.read j).toNat ≤ 255)
include hbytes

/-- `ENC` of a single-byte text with a keystream of its length. -/
theorem exec_enc_of_ok : exec .enc s = .next (done
    { s with db := s.db.write 0 (xorBits (textBits s) (ksSeq s)), dblen := s.kslen }) := by
  rw [exec_enc_of_fits htext (kslen_le_of_text hkey htext), encrypt_of_ok (textToBits_txSeq_of_bytes hbytes),
    xorTransform_of_eq (textBits_length_eq_ksSeq hkey), concludeDb, xorBits_textBits_length hkey, BitVec.ofNat_toNat,
    BitVec.setWidth_eq]

/-- `DEC` of that ciphertext with that keystream, whatever else the state holds. -/
theorem exec_dec_after_enc {t : State} (hdb : t.db = s.db.write 0 (xorBits (textBits s) (ksSeq s)))
    (hdblen : t.dblen = s.kslen) (hks : t.ks = s.ks) (hkslen : t.kslen = s.kslen) :
    exec .dec t = .next (done { t with tx := t.tx.write 0 (txSeq s), txlen := s.txlen }) := by
  have hfits : s.kslen.toNat ≤ Config.params.lmax := kslen_le_of_text hkey htext
  have hdata : dbSeq t = xorBits (textBits s) (ksSeq s) :=
    dbSeq_of_write hdb (hdblen ▸ (xorBits_textBits_length hkey).symm)
  have hkeystream : ksSeq t = ksSeq s := by rw [ksSeq, hks, hkslen, ksSeq]
  have hchars : ∀ c ∈ txSeq s, c.toNat ≤ 255 := fun c hc => by
    obtain ⟨j, hj, rfl⟩ := mem_txSeq_iff.mp hc
    exact hbytes j hj
  have hdecrypt : decrypt (dbSeq t) (ksSeq t) = .ok (txSeq s) := by
    rw [hdata, hkeystream, decrypt_of_ok (xorTransform_undoes (xorTransform_of_eq (textBits_length_eq_ksSeq hkey)))]
    exact bitsToText_flatMap_charBits hchars
  rw [exec_dec_of_fits (hdblen ▸ hfits) (hkslen ▸ hfits), hdecrypt, concludeTx, txSeq_length, BitVec.ofNat_toNat,
    BitVec.setWidth_eq]

end

end Sys2Proof.Machine
end

section
/-! PROOFS. The statements about the codec's laws and about its commands one after another (42_cipher_codec.md). -/

namespace Sys2Proof.Machine

/-- Settles O32: bit `8j + b` of the sequence is bit `7 - b` of character `j`, read in either direction. -/
theorem conversionsAreInverse : Obligations.ConversionsAreInverse :=
  ⟨fun _ h => ⟨_, textToBits_of_bytes h, bitsToText_flatMap_charBits h⟩,
    fun _ h => ⟨_, bitsToText_of_whole h, textToBits_map_charAt h⟩⟩

/-- Settles O34: XOR bit by bit. -/
theorem xorTransformIsItsOwnInverse : Obligations.XorTransformIsItsOwnInverse := by
  intro data key h
  refine ⟨⟨_, xorTransform_of_eq h, xorTransform_undoes (xorTransform_of_eq h)⟩, ?_, ?_⟩
  · rw [xorTransform_of_eq h, xorTransform_of_eq h.symm, xorBits_comm]
  · rw [xorTransform_of_eq List.length_replicate.symm, xorBits_zero]

/-- Settles O35: `ENC` leaves the ciphertext in `DB` and the keystream in `KS`, and `DEC` reads nothing else. -/
theorem decAfterEncRecoversTheText : Obligations.DecAfterEncRecoversTheText := by
  intro s tx' txlen' htext hbytes hkey
  refine ⟨_, _, exec_enc_of_ok hkey htext hbytes, exec_dec_after_enc hkey htext hbytes rfl rfl rfl rfl, rfl, rfl,
    fun j hj => ?_, rfl⟩
  have hlt : j < (txSeq s).length := by rwa [txSeq_length]
  exact (Memory.read_write_zero_of_lt tx' hlt).trans (s.tx.readSeq_zero_getD hj _)

/-- Settles O36: the second XOR gives the data, and writing back what was read restores the buffer. -/
theorem xorTwiceRestoresTheBlock : Obligations.XorTwiceRestoresTheBlock := by
  intro s hwf hdata heq
  have hkey : s.kslen.toNat ≤ Config.params.lmax := heq ▸ hdata
  have hxor := xorTransform_of_eq (dbSeq_length_eq heq)
  have hlen : (xorBits (dbSeq s) (ksSeq s)).length = s.dblen.toNat := xorBits_dbSeq_length heq
  refine ⟨_, exec_xor_of_ok hdata hkey hxor, ?_⟩
  have hback : (s.db.write 0 (xorBits (dbSeq s) (ksSeq s))).write 0 (dbSeq s) = s.db := by
    rw [Memory.write_write_of_length_le hwf (hlen.trans (dbSeq_length s).symm).le, dbSeq, Memory.write_readSeq hwf]
  have hundo : xorTransform (dbSeq (done { s with db := s.db.write 0 (xorBits (dbSeq s) (ksSeq s)) })) (ksSeq s) =
      .ok (dbSeq s) := by
    rw [dbSeq_done_write hlen.symm]
    exact xorTransform_undoes hxor
  calc exec .xor (done { s with db := s.db.write 0 (xorBits (dbSeq s) (ksSeq s)) })
    _ = .next (done { s with db := (s.db.write 0 (xorBits (dbSeq s) (ksSeq s))).write 0 (dbSeq s) }) :=
      exec_xor_of_ok (s := done { s with db := s.db.write 0 (xorBits (dbSeq s) (ksSeq s)) }) hdata hkey hundo
    _ = .next (done s) := by rw [hback]

/-- Settles O37: the parts run the functions `encrypt` and `decrypt` are composed of, and the last write to a buffer
covers the first. -/
theorem encAndDecAreTheirParts : Obligations.EncAndDecAreTheirParts := by
  refine ⟨fun s t u hwf ht htok hu huok => ?_, fun s t u ht htok hu huok => ?_⟩
  · obtain ⟨bits, htext, hbits, rfl⟩ := exec_t2b_ok ht htok
    obtain ⟨cipher, _, hkey, hcipher, hu⟩ := exec_xor_ok hu huok
    have hword : (BitVec.ofNat 32 bits.length).toNat = bits.length := by
      have hcmax : s.txlen.toNat ≤ 32768 := htext
      have hbitslen := textToBits_length hbits
      rw [txSeq_length] at hbitslen
      exact Nat.mod_eq_of_lt (by omega)
    rw [dbSeq_done_write hword] at hcipher
    have hlen : cipher.length = bits.length := xorTransform_length hcipher
    have hencrypt : encrypt (txSeq s) (ksSeq s) = .ok cipher := (encrypt_of_ok hbits).trans hcipher
    rw [hu, exec_enc_of_fits htext hkey, hencrypt, concludeDb, done_db, Memory.write_write_of_length_le hwf hlen.ge,
      hlen]
    rfl
  · obtain ⟨bits, hdata, hkey, hbits, rfl⟩ := exec_xor_ok ht htok
    obtain ⟨text, htext, hu⟩ := exec_b2t_ok hu huok
    have hlen : s.dblen.toNat = bits.length := ((xorTransform_length hbits).trans (dbSeq_length s)).symm
    rw [dbSeq_done_write hlen] at htext
    rw [hu, exec_dec_of_fits hdata hkey, decrypt_of_ok hbits, htext, concludeTx]
    rfl

end Sys2Proof.Machine
end

section
/-! SUPPORT. Single accesses of the host, and the two lines of its script that load a list, access by access
(20_memory.md R42, R59; 30_encoding.md R85). -/

namespace Sys2Proof.Machine

section
variable {s : State} {rest : List Access}

theorem step_writeReg {r : Nat} {v : Word} {x : Reg} (hpending : s.pending = .writeReg r v :: rest) (hr : r ≠ 0)
    (hreg : regOfNumber Config.params r = some x) : step s = .next (writeReg v { s with pending := rest } x) := by
  rw [step_access s _ rest hpending, access_writeReg v hr, accessReg_of_some _ hreg]

section
variable {a : Nat}

section
variable (ha : a < Config.params.lmax)
include ha

theorem step_writeKs {v : Bit} (hpending : s.pending = .writeKs a v :: rest) :
    step s = .next { s with pending := rest, ks := s.ks.write a [v] } :=
  (step_access s _ rest hpending).trans (accessCell_of_not_missing _ (Nat.not_le.mpr ha))

theorem step_writeDb {v : Bit} (hpending : s.pending = .writeDb a v :: rest) :
    step s = .next { s with pending := rest, db := s.db.write a [v] } :=
  (step_access s _ rest hpending).trans (accessCell_of_not_missing _ (Nat.not_le.mpr ha))

theorem step_readKs (hpending : s.pending = .readKs a :: rest) :
    step s = .next { s with pending := rest, answers := s.answers ++ [bitToWord (s.ks.read a)] } :=
  (step_access s _ rest hpending).trans (accessCell_of_not_missing _ (Nat.not_le.mpr ha))

theorem step_readDb (hpending : s.pending = .readDb a :: rest) :
    step s = .next { s with pending := rest, answers := s.answers ++ [bitToWord (s.db.read a)] } :=
  (step_access s _ rest hpending).trans (accessCell_of_not_missing _ (Nat.not_le.mpr ha))

end

variable (ha : a < Config.params.cmax)
include ha

theorem step_writeTx {v : Word} (hpending : s.pending = .writeTx a v :: rest) :
    step s = .next { s with pending := rest, tx := s.tx.write a [v] } :=
  (step_access s _ rest hpending).trans (accessCell_of_not_missing _ (Nat.not_le.mpr ha))

theorem step_readTx (hpending : s.pending = .readTx a :: rest) :
    step s = .next { s with pending := rest, answers := s.answers ++ [s.tx.read a] } :=
  (step_access s _ rest hpending).trans (accessCell_of_not_missing _ (Nat.not_le.mpr ha))

end

theorem run_one {t : State} (h : step s = .next t) : Sys2Proof.core.run 1 s = .next t := run_next 0 s t h

end

section
variable {w : Nat} (m : Memory w) (a : Nat) (v : BitVec w)

theorem Memory.read_write_one_same : (m.write a [v]).read a = v := by
  simp [Memory.read_write]

theorem Memory.read_write_one_of_ne {b : Nat} (h : b ≠ a) : (m.write a [v]).read b = m.read b := by
  rw [Memory.read_write, List.length_singleton, if_neg (by omega)]

/-- One cell and then the cells behind it are one block (20_memory.md R50). -/
theorem Memory.read_write_one_write (vs : List (BitVec w)) (b : Nat) :
    ((m.write a [v]).write (a + 1) vs).read b = (m.write a (v :: vs)).read b := by
  rw [Memory.read_write, Memory.read_write _ a (v :: vs), List.length_cons]
  obtain hlow | rfl | hhigh := Nat.lt_trichotomy b a
  · rw [if_neg (by omega), if_neg (by omega), Memory.read_write_one_of_ne _ _ _ (by omega)]
  · rw [if_neg (by omega), if_pos (by omega), Memory.read_write_one_same, Nat.sub_self, List.getD_cons_zero]
  · obtain ⟨k, rfl⟩ := Nat.exists_eq_add_of_lt hhigh
    by_cases hk : k < vs.length
    · have hindex : a + k + 1 - a = k + 1 := by omega
      have hindex' : a + k + 1 - (a + 1) = k := by omega
      rw [if_pos (by omega), if_pos (by omega), hindex, hindex', List.getD_cons_succ]
    · rw [if_neg (by omega), if_neg (by omega), Memory.read_write_one_of_ne _ _ _ (by omega)]

end

/-- The writes of a line `TAPS` from entry `k` on (30_encoding.md R85). -/
def tapWrites (ts : List Word) (k : Nat) : List Access :=
  (ts.zipIdx k).flatMap (fun tk => lineWr (.tap tk.2) tk.1)

theorem lineTaps_eq (ts : List Word) : lineTaps ts = tapWrites ts 0 ++ [.writeReg 5 (BitVec.ofNat 32 ts.length)] := rfl

theorem tapWrites_length (ts : List Word) (k : Nat) : (tapWrites ts k).length = ts.length := by
  induction ts generalizing k with
  | nil => rfl
  | cons v ts ih => exact congrArg Nat.succ (ih (k + 1))

/-- One entry set and the entries behind it replaced are one block of entries replaced. -/
theorem take_append_drop_set {l us : List Word} {u : Word} {k : Nat} (hk : k < l.length) :
    (l.set k u).take (k + 1) ++ us ++ (l.set k u).drop (k + 1 + us.length) =
      l.take k ++ u :: us ++ l.drop (k + (u :: us).length) := by
  have htake : (l.set k u).take (k + 1) = l.take k ++ [u] := by
    rw [List.take_add_one, List.take_set_of_le (Nat.le_refl k), List.getElem?_set_self hk]
    rfl
  have hdrop : (l.set k u).drop (k + 1 + us.length) = l.drop (k + (us.length + 1)) := by
    rw [List.drop_set_of_lt (by omega), Nat.add_right_comm, Nat.add_assoc]
  rw [htake, hdrop, List.append_assoc _ [u], List.singleton_append, List.length_cons]

/-- The writes from entry `k` on, and the write of `NTAP` behind them. -/
theorem run_tapWrites (ts : List Word) {s : State} {k : Nat} {v : Word}
    (hpending : s.pending = tapWrites ts k ++ [.writeReg 5 v]) (hfits : k + ts.length ≤ s.tap.length)
    (hlen : s.tap.length = Config.params.tmax) :
    Sys2Proof.core.run (ts.length + 1) s = .next { s with
      pending := []
      run := false
      ntap := v
      tap := s.tap.take k ++ ts ++ s.tap.drop (k + ts.length) } := by
  induction ts generalizing s k with
  | nil =>
    have htap : s.tap.take k ++ [] ++ s.tap.drop (k + 0) = s.tap := by simp
    rw [List.length_nil, htap]
    exact run_one (step_writeReg (x := .ntap) hpending (by decide) rfl)
  | cons u ts ih =>
    rw [List.length_cons] at hfits
    have hk : k < s.tap.length := by omega
    have hreg : regOfNumber Config.params (16 + k) = some (.tap k) := by
      rw [regOfNumber_tap (by omega) (by omega), Nat.add_sub_cancel_left]
    have hset : (s.tap.set k u).length = s.tap.length := List.length_set
    have hroom : k + 1 + ts.length ≤ (s.tap.set k u).length := by omega
    have hrest := ih (k := k + 1)
      (s := writeReg u { s with pending := tapWrites ts (k + 1) ++ [.writeReg 5 v] } (.tap k))
      rfl hroom (hset.trans hlen)
    rw [← take_append_drop_set hk]
    exact (run_next _ s _ (step_writeReg (r := 16 + k) hpending (by omega) hreg)).trans hrest

/-- The writes of a line `TEXT` from cell `k` on (30_encoding.md R85). -/
def textWrites (cs : List Word) (k : Nat) : List Access := (cs.zipIdx k).map (fun cj => .writeTx cj.2 cj.1)

theorem lineText_eq (cs : List Word) :
    lineText cs = textWrites cs 0 ++ [.writeReg 11 (BitVec.ofNat 32 cs.length)] := rfl

theorem textWrites_length (cs : List Word) (k : Nat) : (textWrites cs k).length = cs.length := by
  simp [textWrites]

/-- The writes from cell `k` on, and the write of `TXLEN` behind them. -/
theorem run_textWrites (cs : List Word) {s : State} {k : Nat} {v : Word}
    (hpending : s.pending = textWrites cs k ++ [.writeReg 11 v]) (hfits : k + cs.length ≤ Config.params.cmax) :
    ∃ m, Sys2Proof.core.run (cs.length + 1) s = .next { s with pending := [], txlen := v, tx := m } ∧
      ∀ a, m.read a = (s.tx.write k cs).read a := by
  induction cs generalizing s k with
  | nil =>
    refine ⟨s.tx, run_one (step_writeReg (x := .txlen) hpending (by decide) rfl), fun a => ?_⟩
    rw [Memory.read_write, List.length_nil, if_neg (by omega)]
  | cons c cs ih =>
    rw [List.length_cons] at hfits
    have hstep := step_writeTx (a := k) (by omega) hpending
    obtain ⟨m, hrun, hread⟩ := ih (k := k + 1) (s :=
      { s with
        pending := textWrites cs (k + 1) ++ [.writeReg 11 v]
        tx := s.tx.write k [c] }) rfl (by omega)
    refine ⟨m, (run_next _ s _ hstep).trans hrun, fun a => ?_⟩
    rw [hread, Memory.read_write_one_write]

end Sys2Proof.Machine
end

section
/-! PROOFS. The statements about single accesses, the host's lines and the first command after reset. -/

namespace Sys2Proof.Machine

/-- Settles O1: the words of the table are those of the encoder. -/
theorem elevenWordsDecode : Obligations.ElevenWordsDecode :=
  ⟨decode_encode .init, decode_encode .step, decode_encode .gen, decode_encode .period, decode_encode .classifyExact,
    decode_encode .classifyTwoval, decode_encode .t2b, decode_encode .b2t, decode_encode .xor, decode_encode .enc,
    decode_encode .dec⟩

/-- Settles O5: the word placed is the word the step decodes. -/
theorem idleAndPlacedCommand : Obligations.IdleAndPlacedCommand := by
  refine ⟨step_idle, fun s w i hdecode => ?_⟩
  have hword : BitVec.ofNat 32 (w.toNat % 2 ^ 32) = w := by
    rw [Nat.mod_eq_of_lt w.isLt, BitVec.ofNat_toNat, BitVec.setWidth_eq]
  have hpending : (s.withFetchWord 32 w.toNat).pending = .writeReg 0 w :: s.pending := by
    rw [withFetchWord_pending, commandAccess, hword]
  rw [step_access _ _ _ hpending, access_writeCmd, command_of_decode hdecode]
  rfl

/-- Settles O43: from the reset state the degree, the closed run and the empty sequences decide. -/
theorem firstCommandAfterReset : Obligations.FirstCommandAfterReset := by
  refine ⟨fun i hi => exec_of_validate_eq_some hi (validate_of_degree (by decide) (.inl (by decide))),
    exec_step_of_run_false rfl, ?_, ?_⟩
  · rintro i (rfl | rfl | rfl)
    · exact exec_period_of_empty rfl
    · exact exec_classify_of_empty .exact rfl
    · exact exec_classify_of_empty .twoval rfl
  · rintro i (rfl | rfl | rfl | rfl | rfl)
    · exact exec_t2b_of_fits (Nat.zero_le _)
    · exact exec_b2t_of_fits (Nat.zero_le _)
    · exact exec_xor_of_ok (bits := []) (Nat.zero_le _) (Nat.zero_le _) rfl
    · exact exec_enc_of_fits (Nat.zero_le _) (Nat.zero_le _)
    · exact exec_dec_of_fits (Nat.zero_le _) (Nat.zero_le _)

/-- Settles O45: by the register each number names. -/
theorem otherRegisterWrites : Obligations.OtherRegisterWrites := by
  intro s r v rest hpending
  refine ⟨fun hr => ?_, ?_, ?_, ?_, ?_⟩
  · simp only [List.mem_cons, List.not_mem_nil, or_false] at hr
    obtain rfl | rfl | rfl | rfl | rfl | rfl := hr
    · exact step_writeReg (x := .status) hpending (by decide) rfl
    · exact step_writeReg (x := .errinfo) hpending (by decide) rfl
    · exact step_writeReg (x := .state) hpending (by decide) rfl
    · exact step_writeReg (x := .period) hpending (by decide) rfl
    · exact step_writeReg (x := .maxper) hpending (by decide) rfl
    · exact step_writeReg (x := .cls) hpending (by decide) rfl
  · rintro rfl
    exact step_writeReg (x := .len) hpending (by decide) rfl
  · rintro rfl
    exact step_writeReg (x := .kslen) hpending (by decide) rfl
  · rintro rfl
    exact step_writeReg (x := .dblen) hpending (by decide) rfl
  · rintro rfl
    exact step_writeReg (x := .txlen) hpending (by decide) rfl

/-- Settles O47: a write of one cell and a read of one cell, in each buffer. -/
theorem cellAccesses : Obligations.CellAccesses := by
  intro s rest a
  refine ⟨fun v ha hpending => ?_, fun v ha hpending => ?_, fun v ha hpending => ?_, fun ha hpending => ?_,
    fun ha hpending => ?_, step_readTx⟩
  · exact ⟨_, step_writeKs ha hpending, s.ks.read_write_one_same a v, fun _ => s.ks.read_write_one_of_ne a v, rfl⟩
  · exact ⟨_, step_writeDb ha hpending, s.db.read_write_one_same a v, fun _ => s.db.read_write_one_of_ne a v, rfl⟩
  · exact ⟨_, step_writeTx ha hpending, s.tx.read_write_one_same a v, fun _ => s.tx.read_write_one_of_ne a v, rfl⟩
  · exact ⟨_, bitToWord_toNat _, step_readKs ha hpending⟩
  · exact ⟨_, bitToWord_toNat _, step_readDb ha hpending⟩

/-- Settles O51: the line writes the entries from 0 on and then `NTAP`. -/
theorem tapsLineLoadsTheList : Obligations.TapsLineLoadsTheList := by
  intro s ts hpending hfits hlen
  have hword : (BitVec.ofNat 32 ts.length).toNat = ts.length := by
    have htmax : ts.length ≤ 16 := hfits
    exact Nat.mod_eq_of_lt (by omega)
  have hrun := run_tapWrites ts (k := 0) hpending (by omega) hlen
  have hlength : (lineTaps ts).length = ts.length + 1 := by rw [lineTaps_eq, List.length_append, tapWrites_length]; rfl
  rw [hlength]
  refine ⟨_, hrun, rfl, hword, ?_⟩
  simp

/-- Settles O52: the line writes the cells from 0 on and then `TXLEN`. -/
theorem textLineLoadsTheText : Obligations.TextLineLoadsTheText := by
  intro s cs hpending hfits
  have hword : (BitVec.ofNat 32 cs.length).toNat = cs.length := by
    have hcmax : cs.length ≤ 32768 := hfits
    exact Nat.mod_eq_of_lt (by omega)
  obtain ⟨m, hrun, hread⟩ := run_textWrites cs (k := 0) hpending (by omega)
  have hlength : (lineText cs).length = cs.length + 1 := by
    rw [lineText_eq, List.length_append, textWrites_length]
    rfl
  rw [hlength]
  refine ⟨_, hrun, rfl, hword, ?_, fun a ha => (hread a).trans (s.tx.read_write_zero_of_ge ha)⟩
  calc m.readSeq 0 (BitVec.ofNat 32 cs.length).toNat
    _ = (s.tx.write 0 cs).readSeq 0 cs.length := by
      rw [hword]
      exact Memory.readSeq_congr fun a _ => hread a
    _ = cs := Memory.readSeq_write s.tx 0 cs

end Sys2Proof.Machine
end
